-- ==== Sys2Proof/Word.lean ====
section
/-! DEFINITION. The word, byte and register-number types of TRM (00_scope R5, R7; 10_state R20). -/

namespace Sys2Proof

/-- A register or memory word: 16 bits (00_scope R5). -/
abbrev Word := BitVec 16

/-- The addressable unit: 8 bits (00_scope R5). -/
abbrev Byte := BitVec 8

/-- The number of a general register, r0 to r15 (10_state R20). -/
abbrev RegIdx := Fin 16

end Sys2Proof
end

