-- ==== Sys2Proof/Syntax.lean ====
section
/-! DEFINITION. The instructions: one constructor per row of spec/opcode_table.json. The suffix R marks the regular form
(one word, I[8] = 0), the suffix I the immediate form (two words, I[8] = 1) (30_encoding R70, R73, R78). Operand order is
ra, rb, immediate (30_encoding R84). -/

namespace Sys2Proof

/-- The instructions of TRM (30_encoding R78) and hlt (45_halt R150). -/
inductive Instr where
  -- Logic and arithmetic (40_logic_arithmetic)
  /-- `and ra, rb` (R100). -/
  | andR (ra rb : RegIdx)
  /-- `and ra, rb, imm` (R100). -/
  | andI (ra rb : RegIdx) (imm : Word)
  /-- `or ra, rb` (R101). -/
  | orR (ra rb : RegIdx)
  /-- `or ra, rb, imm` (R101). -/
  | orI (ra rb : RegIdx) (imm : Word)
  /-- `xor ra, rb` (R102). -/
  | xorR (ra rb : RegIdx)
  /-- `xor ra, rb, imm` (R102). -/
  | xorI (ra rb : RegIdx) (imm : Word)
  /-- `add ra, rb` (R103). -/
  | addR (ra rb : RegIdx)
  /-- `add ra, rb, imm` (R103). -/
  | addI (ra rb : RegIdx) (imm : Word)
  /-- `sub ra, rb` (R104). -/
  | subR (ra rb : RegIdx)
  /-- `sub ra, rb, imm` (R104). -/
  | subI (ra rb : RegIdx) (imm : Word)
  -- Comparison (41_comparison)
  /-- `tlt ra, rb` (R110). -/
  | tltR (ra rb : RegIdx)
  /-- `tlt ra, rb, imm` (R110). -/
  | tltI (ra rb : RegIdx) (imm : Word)
  /-- `tge ra, rb` (R111). -/
  | tgeR (ra rb : RegIdx)
  /-- `tge ra, rb, imm` (R111). -/
  | tgeI (ra rb : RegIdx) (imm : Word)
  /-- `tbl ra, rb` (R112). -/
  | tblR (ra rb : RegIdx)
  /-- `tbl ra, rb, imm` (R112). -/
  | tblI (ra rb : RegIdx) (imm : Word)
  /-- `tae ra, rb` (R113). -/
  | taeR (ra rb : RegIdx)
  /-- `tae ra, rb, imm` (R113). -/
  | taeI (ra rb : RegIdx) (imm : Word)
  /-- `teq ra, rb` (R114). -/
  | teqR (ra rb : RegIdx)
  /-- `teq ra, rb, imm` (R114). -/
  | teqI (ra rb : RegIdx) (imm : Word)
  /-- `tne ra, rb` (R115). -/
  | tneR (ra rb : RegIdx)
  /-- `tne ra, rb, imm` (R115). -/
  | tneI (ra rb : RegIdx) (imm : Word)
  -- Shift (42_shift)
  /-- `lsl ra, rb` (R120). -/
  | lslR (ra rb : RegIdx)
  /-- `lsl ra, rb, imm` (R120). -/
  | lslI (ra rb : RegIdx) (imm : Word)
  /-- `lsr ra, rb` (R121). -/
  | lsrR (ra rb : RegIdx)
  /-- `lsr ra, rb, imm` (R121). -/
  | lsrI (ra rb : RegIdx) (imm : Word)
  /-- `asr ra, rb` (R122). -/
  | asrR (ra rb : RegIdx)
  /-- `asr ra, rb, imm` (R122). -/
  | asrI (ra rb : RegIdx) (imm : Word)
  -- Data transfer (43_data_transfer)
  /-- `ldw ra, rb` (R130). -/
  | ldwR (ra rb : RegIdx)
  /-- `ldw ra, rb, imm` (R130). -/
  | ldwI (ra rb : RegIdx) (imm : Word)
  /-- `ldb ra, rb` (R131). -/
  | ldbR (ra rb : RegIdx)
  /-- `ldb ra, rb, imm` (R131). -/
  | ldbI (ra rb : RegIdx) (imm : Word)
  /-- `lbu ra, rb` (R132). -/
  | lbuR (ra rb : RegIdx)
  /-- `lbu ra, rb, imm` (R132). -/
  | lbuI (ra rb : RegIdx) (imm : Word)
  /-- `stw ra, rb` (R133). -/
  | stwR (ra rb : RegIdx)
  /-- `stw ra, rb, imm` (R133). -/
  | stwI (ra rb : RegIdx) (imm : Word)
  /-- `stb ra, rb` (R134). -/
  | stbR (ra rb : RegIdx)
  /-- `stb ra, rb, imm` (R134). -/
  | stbI (ra rb : RegIdx) (imm : Word)
  -- Control transfer (44_control_transfer)
  /-- `blt ra, rb` (R141). -/
  | bltR (ra rb : RegIdx)
  /-- `blt ra, rb, imm` (R141). -/
  | bltI (ra rb : RegIdx) (imm : Word)
  /-- `bge ra, rb` (R142). -/
  | bgeR (ra rb : RegIdx)
  /-- `bge ra, rb, imm` (R142). -/
  | bgeI (ra rb : RegIdx) (imm : Word)
  /-- `bbl ra, rb` (R143). -/
  | bblR (ra rb : RegIdx)
  /-- `bbl ra, rb, imm` (R143). -/
  | bblI (ra rb : RegIdx) (imm : Word)
  /-- `bae ra, rb` (R144). -/
  | baeR (ra rb : RegIdx)
  /-- `bae ra, rb, imm` (R144). -/
  | baeI (ra rb : RegIdx) (imm : Word)
  /-- `beq ra, rb` (R145). -/
  | beqR (ra rb : RegIdx)
  /-- `beq ra, rb, imm` (R145). -/
  | beqI (ra rb : RegIdx) (imm : Word)
  /-- `bne ra, rb` (R146). -/
  | bneR (ra rb : RegIdx)
  /-- `bne ra, rb, imm` (R146). -/
  | bneI (ra rb : RegIdx) (imm : Word)
  -- The simulator's halt (45_halt)
  /-- `hlt` (R150). The two register fields are decoded and have no effect (30_encoding R82). -/
  | hlt (ra rb : RegIdx)
  deriving DecidableEq, Repr

end Sys2Proof
end

