-- ==== Sys2Proof/WellFormed.lean ====
section
/-! DEFINITION. The fields of an instruction as they are encoded, and the two checks a decoder makes of them
(30_encoding R71, R75). -/

namespace Sys2Proof

/-- The five fields of the instruction word (30_encoding R71), with the immediate word in place of the Imm bit: present
exactly when I[8] = 1 (30_encoding R74). -/
structure Fields where
  opcode : BitVec 3
  opcode2 : BitVec 4
  ra : RegIdx
  rb : RegIdx
  imm : Option Word
  deriving DecidableEq, Repr

/-- The 26 defined (Opcode, Opcode 2) pairs (30_encoding R78). -/
def definedPairs : List (BitVec 3 × BitVec 4) :=
  [(0b000, 0b0000), (0b000, 0b0010), (0b000, 0b0011), (0b000, 0b0100), (0b000, 0b0101),
   (0b101, 0b0000), (0b101, 0b0001), (0b101, 0b0100), (0b101, 0b0101), (0b101, 0b1000),
   (0b101, 0b1001), (0b001, 0b1000), (0b001, 0b1010), (0b001, 0b1011), (0b010, 0b0000),
   (0b010, 0b0010), (0b010, 0b0011), (0b010, 0b0100), (0b010, 0b0110), (0b100, 0b0000),
   (0b100, 0b0001), (0b100, 0b0100), (0b100, 0b0101), (0b100, 0b1000), (0b100, 0b1001),
   (0b111, 0b1100)]

/-- The first check: the pair is one of the 26 (30_encoding R80). -/
def Fields.pairDefined (f : Fields) : Bool :=
  definedPairs.contains (f.opcode, f.opcode2)

/-- The second check: hlt has no immediate form (30_encoding R82). -/
def Fields.haltIsShort (f : Fields) : Bool :=
  !(f.opcode == 0b111 && f.opcode2 == 0b1100 && f.imm.isSome)

/-- Fields that stand for an instruction (30_encoding R75). -/
def Fields.wellFormed (f : Fields) : Bool :=
  f.pairDefined && f.haltIsShort

end Sys2Proof
end

