-- ==== Sys2Proof/Decode.lean ====
section
/-! DEFINITION. The decoder, total on any bytes, and the encoder (30_encoding R71 to R83). A byte list given to the
decoder holds words in the order of their cells: bits 15..8 of a word, then bits 7..0 (entry 2). -/

namespace Sys2Proof

/-- Why bytes are no instruction. -/
inductive DecodeError where
  /-- fewer bytes than the instruction has -/
  | truncated
  /-- a reserved word (30_encoding R80, R82) -/
  | reserved (w : Word)
  deriving DecidableEq, Repr

/-- Opcode, I[15:13] (30_encoding R71). -/
def opcodeOf (w : Word) : BitVec 3 := w.extractLsb' 13 3

/-- Opcode 2, I[12:9] (30_encoding R71). -/
def opcode2Of (w : Word) : BitVec 4 := w.extractLsb' 9 4

/-- Imm, I[8]: the instruction has a second word (30_encoding R73). -/
def hasImmediate (w : Word) : Bool := w.getLsbD 8

/-- Reg A, I[7:4] (30_encoding R71). -/
def regAOf (w : Word) : RegIdx := (w.extractLsb' 4 4).toFin

/-- Reg B, I[3:0] (30_encoding R71). -/
def regBOf (w : Word) : RegIdx := (w.extractLsb' 0 4).toFin

/-- The length in bytes, from bit 8 of the first word alone (30_encoding R73). -/
def lengthOf (w : Word) : Nat := if hasImmediate w then 4 else 2

/-- The fields of an instruction word; `imm` is the word after it, used when I[8] = 1 (30_encoding R74, R75). -/
def Fields.ofWords (w imm : Word) : Fields where
  opcode := opcodeOf w
  opcode2 := opcode2Of w
  ra := regAOf w
  rb := regBOf w
  imm := if hasImmediate w then some imm else none

/-- A word that no instruction has as its first: the check made before the immediate is fetched (30_encoding R75, R80,
R82). -/
def isReserved (w : Word) : Bool := !(Fields.ofWords w 0).wellFormed

/-- The opcode map (30_encoding R78), read from fields to instruction. -/
def Fields.instr (f : Fields) : Option Instr :=
  match f.opcode, f.opcode2, f.imm with
  | 0b000, 0b0000, none => some (.andR f.ra f.rb)
  | 0b000, 0b0000, some k => some (.andI f.ra f.rb k)
  | 0b000, 0b0010, none => some (.orR f.ra f.rb)
  | 0b000, 0b0010, some k => some (.orI f.ra f.rb k)
  | 0b000, 0b0011, none => some (.xorR f.ra f.rb)
  | 0b000, 0b0011, some k => some (.xorI f.ra f.rb k)
  | 0b000, 0b0100, none => some (.addR f.ra f.rb)
  | 0b000, 0b0100, some k => some (.addI f.ra f.rb k)
  | 0b000, 0b0101, none => some (.subR f.ra f.rb)
  | 0b000, 0b0101, some k => some (.subI f.ra f.rb k)
  | 0b101, 0b0000, none => some (.tltR f.ra f.rb)
  | 0b101, 0b0000, some k => some (.tltI f.ra f.rb k)
  | 0b101, 0b0001, none => some (.tgeR f.ra f.rb)
  | 0b101, 0b0001, some k => some (.tgeI f.ra f.rb k)
  | 0b101, 0b0100, none => some (.tblR f.ra f.rb)
  | 0b101, 0b0100, some k => some (.tblI f.ra f.rb k)
  | 0b101, 0b0101, none => some (.taeR f.ra f.rb)
  | 0b101, 0b0101, some k => some (.taeI f.ra f.rb k)
  | 0b101, 0b1000, none => some (.teqR f.ra f.rb)
  | 0b101, 0b1000, some k => some (.teqI f.ra f.rb k)
  | 0b101, 0b1001, none => some (.tneR f.ra f.rb)
  | 0b101, 0b1001, some k => some (.tneI f.ra f.rb k)
  | 0b001, 0b1000, none => some (.lslR f.ra f.rb)
  | 0b001, 0b1000, some k => some (.lslI f.ra f.rb k)
  | 0b001, 0b1010, none => some (.lsrR f.ra f.rb)
  | 0b001, 0b1010, some k => some (.lsrI f.ra f.rb k)
  | 0b001, 0b1011, none => some (.asrR f.ra f.rb)
  | 0b001, 0b1011, some k => some (.asrI f.ra f.rb k)
  | 0b010, 0b0000, none => some (.ldwR f.ra f.rb)
  | 0b010, 0b0000, some k => some (.ldwI f.ra f.rb k)
  | 0b010, 0b0010, none => some (.ldbR f.ra f.rb)
  | 0b010, 0b0010, some k => some (.ldbI f.ra f.rb k)
  | 0b010, 0b0011, none => some (.lbuR f.ra f.rb)
  | 0b010, 0b0011, some k => some (.lbuI f.ra f.rb k)
  | 0b010, 0b0100, none => some (.stwR f.ra f.rb)
  | 0b010, 0b0100, some k => some (.stwI f.ra f.rb k)
  | 0b010, 0b0110, none => some (.stbR f.ra f.rb)
  | 0b010, 0b0110, some k => some (.stbI f.ra f.rb k)
  | 0b100, 0b0000, none => some (.bltR f.ra f.rb)
  | 0b100, 0b0000, some k => some (.bltI f.ra f.rb k)
  | 0b100, 0b0001, none => some (.bgeR f.ra f.rb)
  | 0b100, 0b0001, some k => some (.bgeI f.ra f.rb k)
  | 0b100, 0b0100, none => some (.bblR f.ra f.rb)
  | 0b100, 0b0100, some k => some (.bblI f.ra f.rb k)
  | 0b100, 0b0101, none => some (.baeR f.ra f.rb)
  | 0b100, 0b0101, some k => some (.baeI f.ra f.rb k)
  | 0b100, 0b1000, none => some (.beqR f.ra f.rb)
  | 0b100, 0b1000, some k => some (.beqI f.ra f.rb k)
  | 0b100, 0b1001, none => some (.bneR f.ra f.rb)
  | 0b100, 0b1001, some k => some (.bneI f.ra f.rb k)
  | 0b111, 0b1100, none => some (.hlt f.ra f.rb)
  | _, _, _ => none

/-- The instruction of a first word and the word after it (30_encoding R75). -/
def decodeWords (w imm : Word) : Except DecodeError Instr :=
  match (Fields.ofWords w imm).instr with
  | some i => .ok i
  | none => .error (.reserved w)

/-- The instruction that a list of bytes begins with (30_encoding R75): the reserved check comes before the immediate
word is asked for. -/
def decode : List Byte → Except DecodeError Instr
  | hi :: lo :: rest =>
    if isReserved (hi ++ lo) then .error (.reserved (hi ++ lo))
    else if hasImmediate (hi ++ lo) then
      match rest with
      | hi2 :: lo2 :: _ => decodeWords (hi ++ lo) (hi2 ++ lo2)
      | _ => .error .truncated
    else decodeWords (hi ++ lo) 0
  | _ => .error .truncated

/-- The opcode map (30_encoding R78), read from instruction to fields. -/
def Instr.fields : Instr → Fields
  | .andR ra rb => ⟨0b000, 0b0000, ra, rb, none⟩
  | .andI ra rb k => ⟨0b000, 0b0000, ra, rb, some k⟩
  | .orR ra rb => ⟨0b000, 0b0010, ra, rb, none⟩
  | .orI ra rb k => ⟨0b000, 0b0010, ra, rb, some k⟩
  | .xorR ra rb => ⟨0b000, 0b0011, ra, rb, none⟩
  | .xorI ra rb k => ⟨0b000, 0b0011, ra, rb, some k⟩
  | .addR ra rb => ⟨0b000, 0b0100, ra, rb, none⟩
  | .addI ra rb k => ⟨0b000, 0b0100, ra, rb, some k⟩
  | .subR ra rb => ⟨0b000, 0b0101, ra, rb, none⟩
  | .subI ra rb k => ⟨0b000, 0b0101, ra, rb, some k⟩
  | .tltR ra rb => ⟨0b101, 0b0000, ra, rb, none⟩
  | .tltI ra rb k => ⟨0b101, 0b0000, ra, rb, some k⟩
  | .tgeR ra rb => ⟨0b101, 0b0001, ra, rb, none⟩
  | .tgeI ra rb k => ⟨0b101, 0b0001, ra, rb, some k⟩
  | .tblR ra rb => ⟨0b101, 0b0100, ra, rb, none⟩
  | .tblI ra rb k => ⟨0b101, 0b0100, ra, rb, some k⟩
  | .taeR ra rb => ⟨0b101, 0b0101, ra, rb, none⟩
  | .taeI ra rb k => ⟨0b101, 0b0101, ra, rb, some k⟩
  | .teqR ra rb => ⟨0b101, 0b1000, ra, rb, none⟩
  | .teqI ra rb k => ⟨0b101, 0b1000, ra, rb, some k⟩
  | .tneR ra rb => ⟨0b101, 0b1001, ra, rb, none⟩
  | .tneI ra rb k => ⟨0b101, 0b1001, ra, rb, some k⟩
  | .lslR ra rb => ⟨0b001, 0b1000, ra, rb, none⟩
  | .lslI ra rb k => ⟨0b001, 0b1000, ra, rb, some k⟩
  | .lsrR ra rb => ⟨0b001, 0b1010, ra, rb, none⟩
  | .lsrI ra rb k => ⟨0b001, 0b1010, ra, rb, some k⟩
  | .asrR ra rb => ⟨0b001, 0b1011, ra, rb, none⟩
  | .asrI ra rb k => ⟨0b001, 0b1011, ra, rb, some k⟩
  | .ldwR ra rb => ⟨0b010, 0b0000, ra, rb, none⟩
  | .ldwI ra rb k => ⟨0b010, 0b0000, ra, rb, some k⟩
  | .ldbR ra rb => ⟨0b010, 0b0010, ra, rb, none⟩
  | .ldbI ra rb k => ⟨0b010, 0b0010, ra, rb, some k⟩
  | .lbuR ra rb => ⟨0b010, 0b0011, ra, rb, none⟩
  | .lbuI ra rb k => ⟨0b010, 0b0011, ra, rb, some k⟩
  | .stwR ra rb => ⟨0b010, 0b0100, ra, rb, none⟩
  | .stwI ra rb k => ⟨0b010, 0b0100, ra, rb, some k⟩
  | .stbR ra rb => ⟨0b010, 0b0110, ra, rb, none⟩
  | .stbI ra rb k => ⟨0b010, 0b0110, ra, rb, some k⟩
  | .bltR ra rb => ⟨0b100, 0b0000, ra, rb, none⟩
  | .bltI ra rb k => ⟨0b100, 0b0000, ra, rb, some k⟩
  | .bgeR ra rb => ⟨0b100, 0b0001, ra, rb, none⟩
  | .bgeI ra rb k => ⟨0b100, 0b0001, ra, rb, some k⟩
  | .bblR ra rb => ⟨0b100, 0b0100, ra, rb, none⟩
  | .bblI ra rb k => ⟨0b100, 0b0100, ra, rb, some k⟩
  | .baeR ra rb => ⟨0b100, 0b0101, ra, rb, none⟩
  | .baeI ra rb k => ⟨0b100, 0b0101, ra, rb, some k⟩
  | .beqR ra rb => ⟨0b100, 0b1000, ra, rb, none⟩
  | .beqI ra rb k => ⟨0b100, 0b1000, ra, rb, some k⟩
  | .bneR ra rb => ⟨0b100, 0b1001, ra, rb, none⟩
  | .bneI ra rb k => ⟨0b100, 0b1001, ra, rb, some k⟩
  | .hlt ra rb => ⟨0b111, 0b1100, ra, rb, none⟩

/-- The instruction word of given fields (30_encoding R71). -/
def Fields.headWord (f : Fields) : Word :=
  f.opcode ++ f.opcode2 ++ BitVec.ofBool f.imm.isSome ++ (BitVec.ofFin f.ra : BitVec 4) ++ (BitVec.ofFin f.rb : BitVec 4)

/-- The words of an instruction (30_encoding R83). -/
def encode (i : Instr) : List Word :=
  i.fields.headWord :: i.fields.imm.toList

/-- Bits 15..8 of a word. -/
def highByte (w : Word) : Byte := w.extractLsb' 8 8

/-- Bits 7..0 of a word. -/
def lowByte (w : Word) : Byte := w.extractLsb' 0 8

/-- The two bytes of a word in the order of its cells (entry 2). -/
def cellBytes (w : Word) : List Byte := [highByte w, lowByte w]

/-- The bytes of an instruction in the order of its cells. -/
def encodeBytes (i : Instr) : List Byte := (encode i).flatMap cellBytes

/-- An instruction as syntax is well formed: its fields pass both checks (30_encoding R75). -/
def Instr.wellFormed (i : Instr) : Bool := i.fields.wellFormed

/-- The two words, first and second, of an instruction given as one number: bit 0 is the least significant bit of the
first word, bits 31..16 are the second word, and every bit from nbits on is 0. -/
def tableWords (nbits w : Nat) : Word × Word :=
  (BitVec.ofNat 16 (w % 2 ^ nbits), BitVec.ofNat 16 (w % 2 ^ nbits / 65536))

/-- The instruction the decoder reads from an instruction given as one number (see `tableWords`). -/
def decodeTableWord (nbits w : Nat) : Option Instr :=
  (decode (cellBytes (tableWords nbits w).1 ++ cellBytes (tableWords nbits w).2)).toOption

end Sys2Proof
end

