-- ==== Sys2Proof/Config.lean ====
section
/-! DEFINITION. What the platform fixes (00_scope R6, 10_state R33) and what the spec leaves open as a parameter of the
model (00_scope R6, 92_eei_decisions, "Open parameters"). An open parameter is an opaque constant: it has no body, so no
proof can lean on a value of it and every theorem holds for each value. -/

namespace Sys2Proof

/-- The two orders of the bytes of a word in memory (20_memory R41). -/
inductive ByteOrder where
  | big
  | little
  deriving DecidableEq, Repr, Inhabited

/-- The three shift operations, as arguments of SHIFT_OVER (42_shift R123). -/
inductive ShiftOp where
  | lsl
  | lsr
  | asr
  deriving DecidableEq, Repr, Inhabited

/-- The two treatments of a byte store to an output service address (60_exceptions R223). -/
inductive IoByteAccess where
  | fault
  | asStw
  deriving DecidableEq, Repr, Inhabited

/-- The eight output services, in the order of the table of 60_exceptions R220. The suffix Ln says "with line feed". -/
inductive OutputService where
  | writeIntLn
  | writeInt
  | writeCharLn
  | writeChar
  | writeStringLn
  | writeString
  | writeHexLn
  | writeHex
  deriving DecidableEq, Repr, Inhabited

/-- The four input services of the table of 60_exceptions R220. -/
inductive InputService where
  | readInt
  | readChar
  | readString
  | readHex
  deriving DecidableEq, Repr, Inhabited

/-- One event of the output trace (60_exceptions R222): the service with the 16-bit value of x[ra], or, for the two
string services, with the list of bytes read. -/
inductive OutEvent where
  | value (svc : OutputService) (v : Word)
  | string (svc : OutputService) (bytes : List Byte)
  deriving DecidableEq, Repr, Inhabited

/-- A byte of a string typed by the user: never zero (60_exceptions R229, "none of them zero"). -/
abbrev NonZeroByte := { b : Byte // b ≠ 0 }

/-- Half of MEM_SIZE, the number of words of RAM: MEM_SIZE is even and at most 0xf000 (00_scope R6). It is an argument of
a run, held by the memory itself (`Memory.words`); entry 3. -/
abbrev RamWords := Fin 30721

namespace Config

/-- Half of the simulator's MEM_SIZE, which is 61440 (00_scope R6, 20_memory R44). Entry 3. -/
def ramWords : RamWords := 30720

/-- SP_RESET: the value of r14 at start, on the simulator (10_state R33). Entry 8. -/
def spReset : Word := 0xf000

/-- BYTE_ORDER (20_memory R41; D1): open. Entry 1. -/
opaque byteOrder : ByteOrder

/-- SHIFT_OVER op v n (42_shift R123; D6): the result of a shift by n = 16 or more; open. Entry 5. -/
opaque shiftOver : ShiftOp → Word → Word → Word

/-- IO_BYTE_ACCESS (60_exceptions R223; D16): open. Entry 6. -/
opaque ioByteAccess : IoByteAccess

/-- The input oracle (60_exceptions R222; D17): the 16-bit value supplied to the n-th executed input load, be it the
value read or, for read string, the value left in x[ra]. Entry 7. -/
opaque inputValue : Nat → Word

/-- The input oracle (60_exceptions R229; D17): the bytes typed for the n-th executed input load, if it is a read string;
none of them zero. Entry 7. -/
opaque inputBytes : Nat → List NonZeroByte

/-- IO_FORMAT (60_exceptions R222, R224; D17): the text that one event of the trace shows the user; open. Entry 14. -/
opaque ioFormat : OutEvent → List Char

end Config

end Sys2Proof
end

