-- ==== Sys2Proof/Machine/State.lean ====
section
/-! DEFINITION. The state of the machine, the reasons a step can stop, and the state at the start of a run
(10_state R34, R33; 60_exceptions R211). -/

namespace Sys2Proof.Machine

/-- RAM: its size, which nothing changes during a run (00_scope R6), and its bytes, as a list of (cell, byte) pairs in one
canonical form (`Memory.wf`). The cell 2k holds bits 15..8 of the word at address 2k and the cell 2k + 1 its bits 7..0;
which of the two a byte address names is BYTE_ORDER (`cellOf` in Machine/Ops.lean; 20_memory R41; entry 2). -/
structure Memory where
  /-- half of MEM_SIZE (00_scope R6, 20_memory R44; entry 3) -/
  words : RamWords
  /-- the bytes that differ from an unlisted one -/
  cells : List Host.Cell
  deriving DecidableEq, Repr

/-- RAM of the given number of words with nothing listed. -/
def Memory.blank (words : RamWords) : Memory := ⟨words, []⟩

/-- What every cell that is not listed reads as: INIT_MEM at reset (10_state R33, D11; DESIGN CHOICE, entry 4). -/
def unlistedByte : Byte := 0

/-- The state (10_state R34): x[1..15], pc, RAM and `halted`, with the host-side state of 10_state R32. -/
structure State where
  /-- x[1] to x[15], x[i] at index i - 1; x[0] has no storage (10_state R22) -/
  regs : Vector Word 15
  /-- the address of the current instruction's first word (10_state R25) -/
  pc : Word
  /-- RAM (10_state R31) -/
  mem : Memory
  /-- set by hlt (10_state R32) -/
  halted : Bool
  /-- the output trace, oldest event first (60_exceptions R222) -/
  output : List OutEvent
  /-- the model's own: how many answers of the input oracle have been consumed (60_exceptions R222; entry 7) -/
  inputsRead : Nat
  /-- the simulator's count of executed instructions (70_reset_and_hazards R262; entry 11) -/
  cycles : Nat
  deriving DecidableEq, Repr

/-- The three kinds of AccessFault (20_memory R46). -/
inductive AccessKind where
  | fetch
  | read
  | write
  deriving DecidableEq, Repr

/-- The reasons a step stops with a fault: the spec's four fault stops (60_exceptions R211, decisions D2 to D7, D12, D16,
D19) and the stuck state of a halted machine. Each is safe: the model stops where the manual gives no behaviour. -/
inductive Fault where
  /-- raised by the fetch of a word at an odd address (20_memory R51). Safe. -/
  | misalignedFetch (addr : Word)
  /-- raised by `ldw` and `stw` at an odd effective address (20_memory R45). Safe. -/
  | misalignedAccess (addr : Word)
  /-- raised by a fetch, load or store at an address that does not exist or is a service used in another way than the
  table of 60_exceptions R220 gives (20_memory R46). Safe. -/
  | accessFault (addr : Word) (kind : AccessKind)
  /-- raised by the decoder on a reserved word (30_encoding R75, R80, R82). Safe. -/
  | reservedInstruction (pc : Word) (word : Word)
  /-- a step from a state with `halted` = true: there is no successor (45_halt R150, U19). Safe. -/
  | halted
  deriving DecidableEq, Repr

/-- The reasons a step is refused. Every instruction has its meaning, so no step of this model is. -/
inductive Refusal where
  /-- an instruction with no meaning yet, named as the opcode table spells it. Safe. -/
  | notModelled (mnemonic : String)
  deriving DecidableEq, Repr

/-- What a step or a meaning answers. -/
abbrev Result := Host.Outcome State Fault Refusal

/-- The parameters of a run that are arguments of it (00_scope R6): RAM with its MEM_SIZE and its contents before loading
(INIT_MEM), and SP_RESET. -/
structure Platform where
  /-- MEM_SIZE and INIT_MEM (entries 3, 4) -/
  initMem : Memory
  /-- SP_RESET, the value of r14 at start (entry 8) -/
  spReset : Word
  deriving DecidableEq, Repr

/-- The simulator: MEM_SIZE = 61440 and SP_RESET = 0xf000 (00_scope R6), and RAM as an unlisted byte reads (entry 4). -/
def simulator : Platform := ⟨Memory.blank Config.ramWords, Config.spReset⟩

/-- The state at the start of a run on a platform with nothing loaded (10_state R33, 70_reset_and_hazards R251). -/
def State.start (p : Platform) : State where
  regs := #v[0, 0, 0, 0, 0, 0, 0, 0, 0, 0, 0, 0, 0, p.spReset, 0]
  pc := 0
  mem := p.initMem
  halted := false
  output := []
  inputsRead := 0
  cycles := 0

/-- The start state of the simulator (10_state R33). -/
def State.reset : State := State.start simulator

end Sys2Proof.Machine
end

