-- ==== Sys2Proof/Machine/Ops.lean ====
section
/-! DEFINITION. The shared operations over registers, memory and the end of an instruction, and the fault stop, which is
all that this machine has in place of an exception (60_exceptions R210, R212). -/

namespace Sys2Proof.Machine

/-! ## General registers -/

/-- `x[i]` (00_scope R8): x[0] is 0x0000 (10_state R22). -/
def State.x (s : State) (i : RegIdx) : Word :=
  if h : i = 0 then 0
  else s.regs[i.val - 1]'(by have := i.isLt; omega)

/-- `x[i] <- v` (00_scope R8): a write to x[0] is discarded (10_state R22). -/
def State.setX (s : State) (i : RegIdx) (v : Word) : State :=
  if h : i = 0 then s
  else { s with regs := s.regs.set (i.val - 1) v (by have := i.isLt; omega) }

/-! ## Cells, bytes and words of RAM -/

/-- The byte of cell k in a list of cells. -/
def lookupCell : List Host.Cell → Nat → Byte
  | [], _ => unlistedByte
  | (k', b) :: rest, k => if k' = k then b else lookupCell rest k

/-- The list of cells with the byte of cell k set, in canonical form: rising, and nothing listed that reads as unlisted. -/
def updateCell : List Host.Cell → Nat → Byte → List Host.Cell
  | [], k, v => if v = unlistedByte then [] else [(k, v)]
  | (k', b) :: rest, k, v =>
    if k' < k then (k', b) :: updateCell rest k v
    else if k' = k then if v = unlistedByte then rest else (k, v) :: rest
    else if v = unlistedByte then (k', b) :: rest
    else (k, v) :: (k', b) :: rest

/-- The cells are strictly rising, below `size`, and none reads as an unlisted cell does; all are at or above `low`. -/
def cellsWf (size : Nat) : Nat → List Host.Cell → Bool
  | _, [] => true
  | low, (k, b) :: rest => decide (low ≤ k) && decide (k < size) && b != unlistedByte && cellsWf size (k + 1) rest

/-- MEM_SIZE: the number of bytes of RAM, which has the addresses below it (00_scope R6, 20_memory R44). -/
def Memory.size (m : Memory) : Nat := 2 * m.words.val

/-- The canonical form of memory: equal memories are equal data. -/
def Memory.wf (m : Memory) : Bool := cellsWf m.size 0 m.cells

/-- The byte of cell k. -/
def Memory.cell (m : Memory) (k : Nat) : Byte := lookupCell m.cells k

/-- Memory with the byte of cell k set. -/
def Memory.setCell (m : Memory) (k : Nat) (v : Byte) : Memory :=
  { m with cells := updateCell m.cells k v }

/-- The cell that the byte address a names (20_memory R41): the address itself when BYTE_ORDER is big, the other cell of
the same word when it is little. -/
def cellOf (order : ByteOrder) (a : Nat) : Nat :=
  match order with
  | .big => a
  | .little => if a % 2 = 0 then a + 1 else a - 1

/-- `RAM[a]`: the byte at byte address a (10_state R31, 20_memory R41). -/
def Memory.byteAt (m : Memory) (a : Nat) : Byte := m.cell (cellOf Config.byteOrder a)

/-- `RAM[a] <- v`: the byte at byte address a is set. -/
def Memory.setByteAt (m : Memory) (a : Nat) (v : Byte) : Memory := m.setCell (cellOf Config.byteOrder a) v

/-- `WordAt(a)` for even a (20_memory R41). -/
def Memory.wordAt (m : Memory) (a : Nat) : Word := m.cell a ++ m.cell (a + 1)

/-- `SetWordAt(a, v)` for even a (20_memory R41). -/
def Memory.setWordAt (m : Memory) (a : Nat) (v : Word) : Memory :=
  (m.setCell a (highByte v)).setCell (a + 1) (lowByte v)

/-- The bytes stored one after another from byte address a. -/
def Memory.setBytesAt (m : Memory) (a : Nat) : List Byte → Memory
  | [] => m
  | b :: rest => (m.setByteAt a b).setBytesAt (a + 1) rest

/-- The words stored one after another from the even address a; a word that is not in RAM is not stored. -/
def Memory.setWordsAt (m : Memory) (a : Nat) : List Word → Memory
  | [] => m
  | w :: rest => ((if a + 1 < m.size then m.setWordAt a w else m)).setWordsAt (a + 2) rest

/-- The bytes from byte address a up to and not including the first zero byte, among the next `count` bytes; with no zero
byte among them, the address after them (60_exceptions R226). -/
def Memory.stringFrom (m : Memory) : (count : Nat) → (a : Nat) → Except Nat (List Byte)
  | 0, a => .error a
  | count + 1, a =>
    if m.byteAt a = 0 then .ok []
    else (m.stringFrom count (a + 1)).map (m.byteAt a :: ·)

/-- The string at byte address a; the error is the first address outside RAM that is reached (60_exceptions R226). -/
def Memory.stringAt (m : Memory) (a : Word) : Except Word (List Byte) :=
  match m.stringFrom (m.size - a.toNat) a.toNat with
  | .ok bytes => .ok bytes
  | .error e => .error (BitVec.ofNat 16 e)

/-- The address is in RAM: below MEM_SIZE (20_memory R44). -/
def Memory.inRam (m : Memory) (a : Word) : Bool := decide (a.toNat < m.size)

/-- The address is odd: addr[0] = 1 (20_memory R45). -/
def isOdd (a : Word) : Bool := a.getLsbD 0

/-- `sext_16` (00_scope R8). -/
def sext16 (b : Byte) : Word := b.signExtend 16

/-- `zext_16` (00_scope R8). -/
def zext16 (b : Byte) : Word := b.setWidth 16

/-! ## The end of an instruction -/

/-- `raise` (00_scope R8): the precise, terminal stop. It carries no state, since nothing changes and no step follows
(60_exceptions R212); there is no handler, no saved register and no return (R210). -/
def raise (f : Fault) : Result := .fault f

/-- The outcome of an instruction whose effect is the given state or fault. -/
def complete (r : Except Fault State) : Result :=
  match r with
  | .ok s => .next s
  | .error f => raise f

/-- The instruction is done: pc is set and one cycle is counted (10_state R26, 70_reset_and_hazards R262). -/
def State.retire (s : State) (pc' : Word) : State := { s with pc := pc', cycles := s.cycles + 1 }

/-- The result goes to x[ra] and pc past the instruction, modulo 2^16 (10_state R26, R28). -/
def State.writeResult (s : State) (ra : RegIdx) (v : Word) (len : Word) : State :=
  (s.setX ra v).retire (s.pc + len)

/-- The end shared by the computing classes (30_encoding R76): x[ra] <- first op second. -/
def compute (op : Word → Word → Word) (src : Word × Word) (ra : RegIdx) (len : Word) (s : State) : Result :=
  .next (s.writeResult ra (op src.1 src.2) len)

/-! ## The access primitives that no service shares -/

/-- `MemRead(addr, 1)` (20_memory R47). -/
def memReadByte (s : State) (a : Word) : Except Fault Byte :=
  if s.mem.inRam a then .ok (s.mem.byteAt a.toNat)
  else .error (.accessFault a .read)

/-- `Fetch(addr)` (20_memory R51). -/
def fetchWord (s : State) (a : Word) : Except Fault Word :=
  if isOdd a then .error (.misalignedFetch a)
  else if s.mem.inRam a then .ok (s.mem.wordAt a.toNat)
  else .error (.accessFault a .fetch)

/-- Fetch and decode (30_encoding R75), with the order of checks of 60_exceptions R214: the first word, the reserved
check, and only then the immediate word, when I[8] = 1. -/
def fetchInstr (s : State) : Except Fault Instr :=
  match fetchWord s s.pc with
  | .error f => .error f
  | .ok w =>
    if isReserved w then .error (.reservedInstruction s.pc w)
    else
      match (if hasImmediate w then fetchWord s (s.pc + 2) else .ok 0) with
      | .error f => .error f
      | .ok imm =>
        match decodeWords w imm with
        | .ok i => .ok i
        | .error _ => .error (.reservedInstruction s.pc w)

/-- The state with the two words placed where the next step fetches them, in a machine that is running. -/
def placeWords (s : State) (words : List Word) : State :=
  { s with mem := s.mem.setWordsAt s.pc.toNat words, halted := false }

end Sys2Proof.Machine
end

