-- ==== Sys2Proof/Machine/Flags.lean ====
section
/-! DEFINITION. TRM has no flags (10_state R29); what other machines keep in flags it computes as one of six conditions,
shared by the comparisons and the branches (30_encoding R79, 41_comparison R117). -/

namespace Sys2Proof.Machine

/-- The six conditions (30_encoding R79). -/
inductive Cond where
  | lessThan
  | greaterEqual
  | below
  | aboveEqual
  | equal
  | notEqual
  deriving DecidableEq, Repr

/-- The condition of a first and a second value: signed for less than and greater or equal, unsigned for below and above
or equal (41_comparison R110 to R115, R117). -/
def Cond.holds (c : Cond) (a b : Word) : Bool :=
  match c with
  | .lessThan => decide (a.toInt < b.toInt)
  | .greaterEqual => decide (b.toInt ≤ a.toInt)
  | .below => decide (a.toNat < b.toNat)
  | .aboveEqual => decide (b.toNat ≤ a.toNat)
  | .equal => decide (a = b)
  | .notEqual => decide (a ≠ b)

/-- The truth value as a word, 0x0001 or 0x0000 (41_comparison R116). -/
def Cond.word (c : Cond) (a b : Word) : Word := if c.holds a b then 1 else 0

end Sys2Proof.Machine
end

