-- ==== Sys2Proof/Machine/Operands.lean ====
section
/-! DEFINITION. Every operand form of TRM (30_encoding R76, R77): the two sources of the computing classes, the effective
address of the data transfers and the two values and the target of the branches, each in its regular and its immediate
form. -/

namespace Sys2Proof.Machine

/-- Register mode (30_encoding R76): source 1 is x[ra], source 2 is x[rb]. -/
def sourcesR (s : State) (ra rb : RegIdx) : Word × Word := (s.x ra, s.x rb)

/-- Register with immediate (30_encoding R76): source 1 is x[rb], source 2 the immediate; x[ra] is not read. -/
def sourcesI (s : State) (rb : RegIdx) (imm : Word) : Word × Word := (s.x rb, imm)

/-- Base (43_data_transfer R135): EA = x[rb]. -/
def effAddrR (s : State) (rb : RegIdx) : Word := s.x rb

/-- Base and displacement (43_data_transfer R135, 20_memory R54): EA = x[rb] + imm modulo 2^16. -/
def effAddrI (s : State) (rb : RegIdx) (imm : Word) : Word := s.x rb + imm

/-- The operands of a branch (44_control_transfer R140). -/
structure BranchOperands where
  first : Word
  second : Word
  target : Word
  deriving DecidableEq, Repr

/-- Regular branch (44_control_transfer R140): x[ra] against 0, target x[rb]. -/
def branchOperandsR (s : State) (ra rb : RegIdx) : BranchOperands := ⟨s.x ra, 0, s.x rb⟩

/-- Immediate branch (44_control_transfer R140): x[ra] against x[rb], target imm. -/
def branchOperandsI (s : State) (ra rb : RegIdx) (imm : Word) : BranchOperands := ⟨s.x ra, s.x rb, imm⟩

end Sys2Proof.Machine
end

