-- ==== Sys2Proof/Machine/Compare.lean ====
section
/-! DEFINITION. The comparison instructions (41_comparison R110 to R117): tlt, tge, tbl, tae, teq, tne. -/

namespace Sys2Proof.Machine

/-- `tlt ra, rb` (R110). -/
def execTltR (ra rb : RegIdx) (s : State) : Result := compute Cond.lessThan.word (sourcesR s ra rb) ra 2 s

/-- `tlt ra, rb, imm` (R110). -/
def execTltI (ra rb : RegIdx) (imm : Word) (s : State) : Result := compute Cond.lessThan.word (sourcesI s rb imm) ra 4 s

/-- `tge ra, rb` (R111). -/
def execTgeR (ra rb : RegIdx) (s : State) : Result := compute Cond.greaterEqual.word (sourcesR s ra rb) ra 2 s

/-- `tge ra, rb, imm` (R111). -/
def execTgeI (ra rb : RegIdx) (imm : Word) (s : State) : Result := compute Cond.greaterEqual.word (sourcesI s rb imm) ra 4 s

/-- `tbl ra, rb` (R112). -/
def execTblR (ra rb : RegIdx) (s : State) : Result := compute Cond.below.word (sourcesR s ra rb) ra 2 s

/-- `tbl ra, rb, imm` (R112). -/
def execTblI (ra rb : RegIdx) (imm : Word) (s : State) : Result := compute Cond.below.word (sourcesI s rb imm) ra 4 s

/-- `tae ra, rb` (R113). -/
def execTaeR (ra rb : RegIdx) (s : State) : Result := compute Cond.aboveEqual.word (sourcesR s ra rb) ra 2 s

/-- `tae ra, rb, imm` (R113). -/
def execTaeI (ra rb : RegIdx) (imm : Word) (s : State) : Result := compute Cond.aboveEqual.word (sourcesI s rb imm) ra 4 s

/-- `teq ra, rb` (R114). -/
def execTeqR (ra rb : RegIdx) (s : State) : Result := compute Cond.equal.word (sourcesR s ra rb) ra 2 s

/-- `teq ra, rb, imm` (R114). -/
def execTeqI (ra rb : RegIdx) (imm : Word) (s : State) : Result := compute Cond.equal.word (sourcesI s rb imm) ra 4 s

/-- `tne ra, rb` (R115). -/
def execTneR (ra rb : RegIdx) (s : State) : Result := compute Cond.notEqual.word (sourcesR s ra rb) ra 2 s

/-- `tne ra, rb, imm` (R115). -/
def execTneI (ra rb : RegIdx) (imm : Word) (s : State) : Result := compute Cond.notEqual.word (sourcesI s rb imm) ra 4 s

end Sys2Proof.Machine
end

