-- ==== Sys2Proof/Machine/ControlTransfer.lean ====
section
/-! DEFINITION. The control transfer instructions (44_control_transfer R140 to R149): blt, bge, bbl, bae, beq, bne. -/

namespace Sys2Proof.Machine

/-- What all branches share (R140): pc receives the target, all 16 bits of it (R147), if the condition holds, else it
advances past the instruction. -/
def branch (c : Cond) (b : BranchOperands) (len : Word) (s : State) : Result :=
  .next (s.retire (if c.holds b.first b.second then b.target else s.pc + len))

/-- `blt ra, rb` (R141). -/
def execBltR (ra rb : RegIdx) (s : State) : Result := branch .lessThan (branchOperandsR s ra rb) 2 s

/-- `blt ra, rb, imm` (R141). -/
def execBltI (ra rb : RegIdx) (imm : Word) (s : State) : Result := branch .lessThan (branchOperandsI s ra rb imm) 4 s

/-- `bge ra, rb` (R142). -/
def execBgeR (ra rb : RegIdx) (s : State) : Result := branch .greaterEqual (branchOperandsR s ra rb) 2 s

/-- `bge ra, rb, imm` (R142). -/
def execBgeI (ra rb : RegIdx) (imm : Word) (s : State) : Result := branch .greaterEqual (branchOperandsI s ra rb imm) 4 s

/-- `bbl ra, rb` (R143). -/
def execBblR (ra rb : RegIdx) (s : State) : Result := branch .below (branchOperandsR s ra rb) 2 s

/-- `bbl ra, rb, imm` (R143). -/
def execBblI (ra rb : RegIdx) (imm : Word) (s : State) : Result := branch .below (branchOperandsI s ra rb imm) 4 s

/-- `bae ra, rb` (R144). -/
def execBaeR (ra rb : RegIdx) (s : State) : Result := branch .aboveEqual (branchOperandsR s ra rb) 2 s

/-- `bae ra, rb, imm` (R144). -/
def execBaeI (ra rb : RegIdx) (imm : Word) (s : State) : Result := branch .aboveEqual (branchOperandsI s ra rb imm) 4 s

/-- `beq ra, rb` (R145). -/
def execBeqR (ra rb : RegIdx) (s : State) : Result := branch .equal (branchOperandsR s ra rb) 2 s

/-- `beq ra, rb, imm` (R145). -/
def execBeqI (ra rb : RegIdx) (imm : Word) (s : State) : Result := branch .equal (branchOperandsI s ra rb imm) 4 s

/-- `bne ra, rb` (R146). -/
def execBneR (ra rb : RegIdx) (s : State) : Result := branch .notEqual (branchOperandsR s ra rb) 2 s

/-- `bne ra, rb, imm` (R146). -/
def execBneI (ra rb : RegIdx) (imm : Word) (s : State) : Result := branch .notEqual (branchOperandsI s ra rb imm) 4 s

end Sys2Proof.Machine
end

