-- ==== Sys2Proof/Machine/Services.lean ====
section
/-! DEFINITION. The simulator's services (60_exceptions R220 to R230) and the access primitives that reach them
(20_memory R48, R49, R50). -/

namespace Sys2Proof.Machine

/-! ## The service table -/

/-- The address of an output service (60_exceptions R220). -/
def outputAddress : OutputService → Word
  | .writeIntLn => 0xf000
  | .writeInt => 0xf002
  | .writeCharLn => 0xf004
  | .writeChar => 0xf006
  | .writeStringLn => 0xf008
  | .writeString => 0xf00a
  | .writeHexLn => 0xf00c
  | .writeHex => 0xf00e

/-- The address of an input service (60_exceptions R220). -/
def inputAddress : InputService → Word
  | .readInt => 0xf010
  | .readChar => 0xf014
  | .readString => 0xf018
  | .readHex => 0xf01c

/-- The output services (60_exceptions R220). -/
def outputServices : List OutputService :=
  [.writeIntLn, .writeInt, .writeCharLn, .writeChar, .writeStringLn, .writeString, .writeHexLn, .writeHex]

/-- The input services (60_exceptions R220). -/
def inputServices : List InputService := [.readInt, .readChar, .readString, .readHex]

/-- The output service at an effective address, however the address was formed (60_exceptions R220). -/
def outputServiceAt (a : Word) : Option OutputService := outputServices.find? (fun svc => outputAddress svc == a)

/-- The input service at an effective address (60_exceptions R220). -/
def inputServiceAt (a : Word) : Option InputService := inputServices.find? (fun svc => inputAddress svc == a)

/-- The two write string services take the address of a string, the other six a value (60_exceptions R220). -/
def takesString : OutputService → Bool
  | .writeStringLn => true
  | .writeString => true
  | _ => false

/-! ## Performing a service -/

/-- The event of an output service given the value v (60_exceptions R224, R225), which for write string is the address of
the string (R226). -/
def outputEvent (s : State) (svc : OutputService) (v : Word) : Except Fault OutEvent :=
  if takesString svc then
    match s.mem.stringAt v with
    | .ok bytes => .ok (.string svc bytes)
    | .error a => .error (.accessFault a .read)
  else .ok (.value svc v)

/-- The event goes to the end of the trace (60_exceptions R222). -/
def State.emit (s : State) (e : OutEvent) : State := { s with output := s.output ++ [e] }

/-- An output service: it writes no memory and no register (60_exceptions R221). -/
def performOutput (s : State) (svc : OutputService) (v : Word) : Except Fault State :=
  (outputEvent s svc v).map s.emit

/-- The bytes that read string stores: the ones typed, then the terminator (60_exceptions R229). -/
def typedString (n : Nat) : List Byte := (Config.inputBytes n).map Subtype.val ++ [0]

/-- The first address outside RAM among addresses that rise from a (60_exceptions R214). -/
def Memory.firstOutside (m : Memory) (a : Word) : Word := if m.inRam a then BitVec.ofNat 16 m.size else a

/-- The state after one more answer of the oracle has been consumed. -/
def State.consumeInput (s : State) : State := { s with inputsRead := s.inputsRead + 1 }

/-- Read string into the buffer at address buf (60_exceptions R229): nothing is stored when a byte would fall outside
RAM. -/
def readStringInto (s : State) (buf : Word) : Except Fault State :=
  if buf.toNat + (typedString s.inputsRead).length ≤ s.mem.size then
    .ok { s.consumeInput with mem := s.mem.setBytesAt buf.toNat (typedString s.inputsRead) }
  else .error (.accessFault (s.mem.firstOutside buf) .write)

/-- An input service called by a load whose data register is ra: the value for x[ra] and the state before it is written
(60_exceptions R227 to R230). -/
def performInput (s : State) (svc : InputService) (ra : RegIdx) : Except Fault (Word × State) :=
  match svc with
  | .readInt => .ok (Config.inputValue s.inputsRead, s.consumeInput)
  | .readChar => .ok (Config.inputValue s.inputsRead, s.consumeInput)
  | .readString => (readStringInto s (s.x ra)).map (fun t => (Config.inputValue s.inputsRead, t))
  | .readHex => .ok (Config.inputValue s.inputsRead, s.consumeInput)

/-! ## The access primitives -/

/-- `MemRead(addr, 2)` for a load whose data register is ra (20_memory R48). -/
def memReadWord (s : State) (ra : RegIdx) (a : Word) : Except Fault (Word × State) :=
  if isOdd a then .error (.misalignedAccess a)
  else if s.mem.inRam a then .ok (s.mem.wordAt a.toNat, s)
  else
    match inputServiceAt a with
    | some svc => performInput s svc ra
    | none => .error (.accessFault a .read)

/-- `MemWrite(addr, 2, v)` (20_memory R50). -/
def memWriteWord (s : State) (a v : Word) : Except Fault State :=
  if isOdd a then .error (.misalignedAccess a)
  else if s.mem.inRam a then .ok { s with mem := s.mem.setWordAt a.toNat v }
  else
    match outputServiceAt a with
    | some svc => performOutput s svc v
    | none => .error (.accessFault a .write)

/-- A byte store outside RAM: a fault, or at an output service the stw service with the byte zero-extended, as
IO_BYTE_ACCESS says (60_exceptions R223, D16). -/
def storeByteOutsideRam (s : State) (a : Word) (v : Byte) : Except Fault State :=
  match outputServiceAt a, Config.ioByteAccess with
  | some svc, .asStw => performOutput s svc (zext16 v)
  | _, _ => .error (.accessFault a .write)

/-- `MemWrite(addr, 1, v)` (20_memory R49, 60_exceptions R223). -/
def memWriteByte (s : State) (a : Word) (v : Byte) : Except Fault State :=
  if s.mem.inRam a then .ok { s with mem := s.mem.setByteAt a.toNat v }
  else storeByteOutsideRam s a v

/-- The text on the user's console: the trace rendered by IO_FORMAT (60_exceptions R222, D17). No instruction reads it. -/
def State.console (s : State) : List Char := s.output.flatMap Config.ioFormat

end Sys2Proof.Machine
end

