-- ==== Sys2Proof/Machine/DataTransfer.lean ====
section
/-! DEFINITION. The data transfer instructions (43_data_transfer R130 to R136): ldw, ldb, lbu, stw, stb. -/

namespace Sys2Proof.Machine

/-- Load of a word (R130): the access, with the service it may call, then the write of x[ra] (70_reset_and_hazards R257). -/
def loadWord (ra : RegIdx) (ea len : Word) (s : State) : Result :=
  complete ((memReadWord s ra ea).map (fun r => r.2.writeResult ra r.1 len))

/-- Load of a byte, extended to 16 bits (R131, R132). -/
def loadByte (extend : Byte → Word) (ra : RegIdx) (ea len : Word) (s : State) : Result :=
  complete ((memReadByte s ea).map (fun b => s.writeResult ra (extend b) len))

/-- Store of the word x[ra] (R133). -/
def storeWord (ra : RegIdx) (ea len : Word) (s : State) : Result :=
  complete ((memWriteWord s ea (s.x ra)).map (fun t => t.retire (s.pc + len)))

/-- Store of the byte x[ra][7:0] (R134). -/
def storeByte (ra : RegIdx) (ea len : Word) (s : State) : Result :=
  complete ((memWriteByte s ea (lowByte (s.x ra))).map (fun t => t.retire (s.pc + len)))

/-- `ldw ra, rb` (R130). -/
def execLdwR (ra rb : RegIdx) (s : State) : Result := loadWord ra (effAddrR s rb) 2 s

/-- `ldw ra, rb, imm` (R130). -/
def execLdwI (ra rb : RegIdx) (imm : Word) (s : State) : Result := loadWord ra (effAddrI s rb imm) 4 s

/-- `ldb ra, rb` (R131). -/
def execLdbR (ra rb : RegIdx) (s : State) : Result := loadByte sext16 ra (effAddrR s rb) 2 s

/-- `ldb ra, rb, imm` (R131). -/
def execLdbI (ra rb : RegIdx) (imm : Word) (s : State) : Result := loadByte sext16 ra (effAddrI s rb imm) 4 s

/-- `lbu ra, rb` (R132). -/
def execLbuR (ra rb : RegIdx) (s : State) : Result := loadByte zext16 ra (effAddrR s rb) 2 s

/-- `lbu ra, rb, imm` (R132). -/
def execLbuI (ra rb : RegIdx) (imm : Word) (s : State) : Result := loadByte zext16 ra (effAddrI s rb imm) 4 s

/-- `stw ra, rb` (R133). -/
def execStwR (ra rb : RegIdx) (s : State) : Result := storeWord ra (effAddrR s rb) 2 s

/-- `stw ra, rb, imm` (R133). -/
def execStwI (ra rb : RegIdx) (imm : Word) (s : State) : Result := storeWord ra (effAddrI s rb imm) 4 s

/-- `stb ra, rb` (R134). -/
def execStbR (ra rb : RegIdx) (s : State) : Result := storeByte ra (effAddrR s rb) 2 s

/-- `stb ra, rb, imm` (R134). -/
def execStbI (ra rb : RegIdx) (imm : Word) (s : State) : Result := storeByte ra (effAddrI s rb imm) 4 s

end Sys2Proof.Machine
end

