-- ==== Sys2Proof/Machine/Halt.lean ====
section
/-! DEFINITION. hlt, the simulator's pseudo-instruction (45_halt R150 to R152). -/

namespace Sys2Proof.Machine

/-- `hlt` (R150): halted <- true; pc, x[] and memory are unchanged, and one cycle is counted (70_reset_and_hazards R262). -/
def execHlt (s : State) : Result := .next ({ s with halted := true }.retire s.pc)

end Sys2Proof.Machine
end

