-- ==== Sys2Proof/Machine/LogicArith.lean ====
section
/-! DEFINITION. The logic and arithmetic instructions (40_logic_arithmetic R100 to R106): and, or, xor, add, sub. -/

namespace Sys2Proof.Machine

/-- `and ra, rb` (R100). -/
def execAndR (ra rb : RegIdx) (s : State) : Result := compute (· &&& ·) (sourcesR s ra rb) ra 2 s

/-- `and ra, rb, imm` (R100). -/
def execAndI (ra rb : RegIdx) (imm : Word) (s : State) : Result := compute (· &&& ·) (sourcesI s rb imm) ra 4 s

/-- `or ra, rb` (R101). -/
def execOrR (ra rb : RegIdx) (s : State) : Result := compute (· ||| ·) (sourcesR s ra rb) ra 2 s

/-- `or ra, rb, imm` (R101). -/
def execOrI (ra rb : RegIdx) (imm : Word) (s : State) : Result := compute (· ||| ·) (sourcesI s rb imm) ra 4 s

/-- `xor ra, rb` (R102). -/
def execXorR (ra rb : RegIdx) (s : State) : Result := compute (· ^^^ ·) (sourcesR s ra rb) ra 2 s

/-- `xor ra, rb, imm` (R102). -/
def execXorI (ra rb : RegIdx) (imm : Word) (s : State) : Result := compute (· ^^^ ·) (sourcesI s rb imm) ra 4 s

/-- `add ra, rb` (R103). -/
def execAddR (ra rb : RegIdx) (s : State) : Result := compute (· + ·) (sourcesR s ra rb) ra 2 s

/-- `add ra, rb, imm` (R103). -/
def execAddI (ra rb : RegIdx) (imm : Word) (s : State) : Result := compute (· + ·) (sourcesI s rb imm) ra 4 s

/-- `sub ra, rb` (R104). -/
def execSubR (ra rb : RegIdx) (s : State) : Result := compute (· - ·) (sourcesR s ra rb) ra 2 s

/-- `sub ra, rb, imm` (R104). -/
def execSubI (ra rb : RegIdx) (imm : Word) (s : State) : Result := compute (· - ·) (sourcesI s rb imm) ra 4 s

end Sys2Proof.Machine
end

