-- ==== Sys2Proof/Machine/Shift.lean ====
section
/-! DEFINITION. The shift instructions (42_shift R120 to R124): lsl, lsr, asr. -/

namespace Sys2Proof.Machine

/-- The result of a shift of v by n (42_shift R120 to R123): for an amount of 0 to 15 the shift itself; from 16 on the open
parameter SHIFT_OVER. -/
def shiftResult (op : ShiftOp) (v n : Word) : Word :=
  if n.toNat ≤ 15 then
    match op with
    | .lsl => v <<< n.toNat
    | .lsr => v >>> n.toNat
    | .asr => v.sshiftRight n.toNat
  else Config.shiftOver op v n

/-- `lsl ra, rb` (R120). -/
def execLslR (ra rb : RegIdx) (s : State) : Result := compute (shiftResult .lsl) (sourcesR s ra rb) ra 2 s

/-- `lsl ra, rb, imm` (R120). -/
def execLslI (ra rb : RegIdx) (imm : Word) (s : State) : Result := compute (shiftResult .lsl) (sourcesI s rb imm) ra 4 s

/-- `lsr ra, rb` (R121). -/
def execLsrR (ra rb : RegIdx) (s : State) : Result := compute (shiftResult .lsr) (sourcesR s ra rb) ra 2 s

/-- `lsr ra, rb, imm` (R121). -/
def execLsrI (ra rb : RegIdx) (imm : Word) (s : State) : Result := compute (shiftResult .lsr) (sourcesI s rb imm) ra 4 s

/-- `asr ra, rb` (R122). -/
def execAsrR (ra rb : RegIdx) (s : State) : Result := compute (shiftResult .asr) (sourcesR s ra rb) ra 2 s

/-- `asr ra, rb, imm` (R122). -/
def execAsrI (ra rb : RegIdx) (imm : Word) (s : State) : Result := compute (shiftResult .asr) (sourcesI s rb imm) ra 4 s

end Sys2Proof.Machine
end

