-- ==== Sys2Proof/Machine/Dispatch.lean ====
section
/-! DEFINITION. The meaning of every instruction, one arm per constructor of `Instr` (70_reset_and_hazards R266). -/

namespace Sys2Proof.Machine

def exec (i : Instr) (s : State) : Host.Outcome State Fault Refusal :=
  match i with
  | .andR ra rb => Sys2Proof.Machine.execAndR ra rb s
  | .andI ra rb imm => Sys2Proof.Machine.execAndI ra rb imm s
  | .orR ra rb => Sys2Proof.Machine.execOrR ra rb s
  | .orI ra rb imm => Sys2Proof.Machine.execOrI ra rb imm s
  | .xorR ra rb => Sys2Proof.Machine.execXorR ra rb s
  | .xorI ra rb imm => Sys2Proof.Machine.execXorI ra rb imm s
  | .addR ra rb => Sys2Proof.Machine.execAddR ra rb s
  | .addI ra rb imm => Sys2Proof.Machine.execAddI ra rb imm s
  | .subR ra rb => Sys2Proof.Machine.execSubR ra rb s
  | .subI ra rb imm => Sys2Proof.Machine.execSubI ra rb imm s
  | .tltR ra rb => Sys2Proof.Machine.execTltR ra rb s
  | .tltI ra rb imm => Sys2Proof.Machine.execTltI ra rb imm s
  | .tgeR ra rb => Sys2Proof.Machine.execTgeR ra rb s
  | .tgeI ra rb imm => Sys2Proof.Machine.execTgeI ra rb imm s
  | .tblR ra rb => Sys2Proof.Machine.execTblR ra rb s
  | .tblI ra rb imm => Sys2Proof.Machine.execTblI ra rb imm s
  | .taeR ra rb => Sys2Proof.Machine.execTaeR ra rb s
  | .taeI ra rb imm => Sys2Proof.Machine.execTaeI ra rb imm s
  | .teqR ra rb => Sys2Proof.Machine.execTeqR ra rb s
  | .teqI ra rb imm => Sys2Proof.Machine.execTeqI ra rb imm s
  | .tneR ra rb => Sys2Proof.Machine.execTneR ra rb s
  | .tneI ra rb imm => Sys2Proof.Machine.execTneI ra rb imm s
  | .lslR ra rb => Sys2Proof.Machine.execLslR ra rb s
  | .lslI ra rb imm => Sys2Proof.Machine.execLslI ra rb imm s
  | .lsrR ra rb => Sys2Proof.Machine.execLsrR ra rb s
  | .lsrI ra rb imm => Sys2Proof.Machine.execLsrI ra rb imm s
  | .asrR ra rb => Sys2Proof.Machine.execAsrR ra rb s
  | .asrI ra rb imm => Sys2Proof.Machine.execAsrI ra rb imm s
  | .ldwR ra rb => Sys2Proof.Machine.execLdwR ra rb s
  | .ldwI ra rb imm => Sys2Proof.Machine.execLdwI ra rb imm s
  | .ldbR ra rb => Sys2Proof.Machine.execLdbR ra rb s
  | .ldbI ra rb imm => Sys2Proof.Machine.execLdbI ra rb imm s
  | .lbuR ra rb => Sys2Proof.Machine.execLbuR ra rb s
  | .lbuI ra rb imm => Sys2Proof.Machine.execLbuI ra rb imm s
  | .stwR ra rb => Sys2Proof.Machine.execStwR ra rb s
  | .stwI ra rb imm => Sys2Proof.Machine.execStwI ra rb imm s
  | .stbR ra rb => Sys2Proof.Machine.execStbR ra rb s
  | .stbI ra rb imm => Sys2Proof.Machine.execStbI ra rb imm s
  | .bltR ra rb => Sys2Proof.Machine.execBltR ra rb s
  | .bltI ra rb imm => Sys2Proof.Machine.execBltI ra rb imm s
  | .bgeR ra rb => Sys2Proof.Machine.execBgeR ra rb s
  | .bgeI ra rb imm => Sys2Proof.Machine.execBgeI ra rb imm s
  | .bblR ra rb => Sys2Proof.Machine.execBblR ra rb s
  | .bblI ra rb imm => Sys2Proof.Machine.execBblI ra rb imm s
  | .baeR ra rb => Sys2Proof.Machine.execBaeR ra rb s
  | .baeI ra rb imm => Sys2Proof.Machine.execBaeI ra rb imm s
  | .beqR ra rb => Sys2Proof.Machine.execBeqR ra rb s
  | .beqI ra rb imm => Sys2Proof.Machine.execBeqI ra rb imm s
  | .bneR ra rb => Sys2Proof.Machine.execBneR ra rb s
  | .bneI ra rb imm => Sys2Proof.Machine.execBneI ra rb imm s
  | .hlt _ _ => Sys2Proof.Machine.execHlt s

end Sys2Proof.Machine
end

