-- ==== Sys2Proof/Machine/Step.lean ====
section
/-! DEFINITION. One step of the machine (70_reset_and_hazards R266), and the placing of an instruction where the next
step fetches it. -/

namespace Sys2Proof.Machine

/-- One step (70_reset_and_hazards R266): a halted machine has no successor (45_halt R150); else fetch, decode, execute. -/
def step (s : State) : Host.Outcome State Fault Refusal :=
  if s.halted then raise .halted
  else
    match fetchInstr s with
    | .ok i => exec i s
    | .error f => raise f

/-- The state with an instruction, given as one number (`tableWords`), stored at pc, in a machine that is running: the
next step runs it. It stands for the loading of a program from outside (entry 13). -/
def State.withFetchWord (s : State) (nbits w : Nat) : State :=
  placeWords s [(tableWords nbits w).1, (tableWords nbits w).2]

end Sys2Proof.Machine
end

