-- ==== Sys2Proof/Machine/Loader.lean ====
section
/-! DEFINITION. The start sequence of a run (70_reset_and_hazards R251, R253; 46_assembly_language R179). -/

namespace Sys2Proof.Machine

/-- The number of bytes of a program of words, as the simulator prints it (46_assembly_language R181). -/
def programBytes (program : List Word) : Nat := 2 * program.length

/-- The object code loaded at address 0, word by word (46_assembly_language R179). Of the check that R181 speaks of and does
not describe, the model makes one: a program that RAM cannot hold is not loaded; any words are taken, whether or not they
are instructions (DESIGN CHOICE, entry 21). -/
def loadProgram (m : Memory) (program : List Word) : Option Memory :=
  if programBytes program ≤ m.size then some (m.setWordsAt 0 program) else none

/-- The state in which a run starts (70_reset_and_hazards R251), from the platform (MEM_SIZE, INIT_MEM, SP_RESET) and the
object code. The debugger's "reset program" is the same sequence again (R253). -/
def State.launch (p : Platform) (program : List Word) : Option State :=
  (loadProgram p.initMem program).map (fun m => { State.start p with mem := m })

/-- The lines of an object file as numbers: the words with their addresses from a on (46_assembly_language R180). -/
def addressed (a : Word) : List Word → List (Word × Word)
  | [] => []
  | w :: rest => (a, w) :: addressed (a + 2) rest

/-- The load of one line `aaaa wwww`: `SetWordAt(aaaa, wwww)` (46_assembly_language R179). A line whose address is odd or
outside RAM is not loaded (DESIGN CHOICE, entry 21). -/
def loadLine (m : Memory) (line : Word × Word) : Option Memory :=
  if isOdd line.1 = false ∧ m.inRam line.1 = true then some (m.setWordAt line.1.toNat line.2) else none

/-- The load of the lines of an object file in their order (46_assembly_language R179). -/
def loadLines (m : Memory) : List (Word × Word) → Option Memory
  | [] => some m
  | line :: rest => (loadLine m line).bind (fun m' => loadLines m' rest)

/-- The state in which a run of an object file's lines starts (70_reset_and_hazards R251). -/
def State.launchLines (p : Platform) (lines : List (Word × Word)) : Option State :=
  (loadLines p.initMem lines).map (fun m => { State.start p with mem := m })

end Sys2Proof.Machine
end

