-- ==== Sys2Proof/Machine/Assembler.lean ====
section
/-! DEFINITION. The assembler (46_assembly_language): from source lines to the memory image. The text of a line is read in
Machine/AssemblerText.lean. -/

namespace Sys2Proof.Machine

/-- The mnemonics of the 25 instructions (46_assembly_language R164); hlt has a line of its own (R170). -/
inductive Mnemonic where
  | and | or | xor | add | sub | tlt
  | tge | tbl | tae | teq | tne | lsl
  | lsr | asr | ldw | ldb | lbu | stw
  | stb | blt | bge | bbl | bae | beq
  | bne
  deriving DecidableEq, Repr

/-- The mnemonics in the order of the opcode map (30_encoding R78). -/
def allMnemonics : List Mnemonic :=
  [.and, .or, .xor, .add, .sub, .tlt, .tge, .tbl, .tae,
   .teq, .tne, .lsl, .lsr, .asr, .ldw, .ldb, .lbu, .stw,
   .stb, .blt, .bge, .bbl, .bae, .beq, .bne]

/-- The instruction of two register operands (46_assembly_language R165): the regular form. -/
def Mnemonic.regular (m : Mnemonic) (ra rb : RegIdx) : Instr :=
  match m with
  | .and => .andR ra rb
  | .or => .orR ra rb
  | .xor => .xorR ra rb
  | .add => .addR ra rb
  | .sub => .subR ra rb
  | .tlt => .tltR ra rb
  | .tge => .tgeR ra rb
  | .tbl => .tblR ra rb
  | .tae => .taeR ra rb
  | .teq => .teqR ra rb
  | .tne => .tneR ra rb
  | .lsl => .lslR ra rb
  | .lsr => .lsrR ra rb
  | .asr => .asrR ra rb
  | .ldw => .ldwR ra rb
  | .ldb => .ldbR ra rb
  | .lbu => .lbuR ra rb
  | .stw => .stwR ra rb
  | .stb => .stbR ra rb
  | .blt => .bltR ra rb
  | .bge => .bgeR ra rb
  | .bbl => .bblR ra rb
  | .bae => .baeR ra rb
  | .beq => .beqR ra rb
  | .bne => .bneR ra rb

/-- The instruction of two register operands and an immediate (46_assembly_language R165): the immediate form, even when
the immediate is 0. -/
def Mnemonic.immediate (m : Mnemonic) (ra rb : RegIdx) (imm : Word) : Instr :=
  match m with
  | .and => .andI ra rb imm
  | .or => .orI ra rb imm
  | .xor => .xorI ra rb imm
  | .add => .addI ra rb imm
  | .sub => .subI ra rb imm
  | .tlt => .tltI ra rb imm
  | .tge => .tgeI ra rb imm
  | .tbl => .tblI ra rb imm
  | .tae => .taeI ra rb imm
  | .teq => .teqI ra rb imm
  | .tne => .tneI ra rb imm
  | .lsl => .lslI ra rb imm
  | .lsr => .lsrI ra rb imm
  | .asr => .asrI ra rb imm
  | .ldw => .ldwI ra rb imm
  | .ldb => .ldbI ra rb imm
  | .lbu => .lbuI ra rb imm
  | .stw => .stwI ra rb imm
  | .stb => .stbI ra rb imm
  | .blt => .bltI ra rb imm
  | .bge => .bgeI ra rb imm
  | .bbl => .bblI ra rb imm
  | .bae => .baeI ra rb imm
  | .beq => .beqI ra rb imm
  | .bne => .bneI ra rb imm

/-- A number or the name of a reference, as an immediate or a word item (46_assembly_language R163, R168, R169). -/
inductive Literal where
  | number (n : Int)
  | symbol (name : String)
  deriving DecidableEq, Repr

/-- The contents of a source line (46_assembly_language R160). -/
inductive SourceLine where
  /-- a reference (R162) -/
  | label (name : String)
  /-- an instruction with two operands or three (R165) -/
  | instr (m : Mnemonic) (ra rb : RegIdx) (imm : Option Literal)
  /-- `hlt` (R170) -/
  | halt
  /-- word items (R171) -/
  | words (items : List Literal)
  /-- byte items, each preceded by $ in the text (R172) -/
  | bytes (items : List Int)
  /-- a reservation of n bytes, [n] in the text (R173); its bytes are zeros (D26, entry 27) -/
  | reserve (n : Nat)
  /-- a string (R174) -/
  | text (chars : List Byte)
  deriving DecidableEq, Repr

/-- Why the assembler refuses a source (entry 16). -/
inductive AsmError where
  /-- a literal outside the range of R168 (D21, U23) -/
  | outOfRange (n : Int)
  /-- a reference that is not declared (U24) -/
  | undefinedSymbol (name : String)
  /-- a reference that is declared twice (U24) -/
  | duplicateSymbol (name : String)
  /-- a line that no rule of 46_assembly_language gives a meaning (U24, U25) -/
  | badLine (line : String)
  deriving DecidableEq, Repr

/-- One word of the image: a word item or instruction word, or two bytes at consecutive addresses
(46_assembly_language R176). -/
inductive ImageWord where
  | word (w : Word)
  | pair (lower higher : Byte)
  deriving DecidableEq, Repr

/-- The word of the listing (46_assembly_language R176). -/
def ImageWord.toWord (order : ByteOrder) : ImageWord → Word
  | .word w => w
  | .pair lower higher =>
    match order with
    | .big => lower ++ higher
    | .little => higher ++ lower

/-- A length in bytes with the padding byte, where there is one (46_assembly_language R175). Padding counts per source line,
as the table of R177 does; R175 leaves open whether it is per line or per run of byte items (DESIGN CHOICE, entry 25). -/
def padded (n : Nat) : Nat := n + n % 2

/-- The bytes a line emits (46_assembly_language R177). -/
def SourceLine.size : SourceLine → Nat
  | .label _ => 0
  | .instr _ _ _ none => 2
  | .instr _ _ _ (some _) => 4
  | .halt => 2
  | .words items => 2 * items.length
  | .bytes items => padded items.length
  | .reserve n => padded n
  | .text chars => padded (chars.length + 1)

/-- The references with their values: the address of the next word emitted (46_assembly_language R163). -/
def symbolsFrom (at_ : Nat) : List SourceLine → List (String × Nat)
  | [] => []
  | .label name :: rest => (name, at_) :: symbolsFrom at_ rest
  | line :: rest => symbolsFrom (at_ + line.size) rest

/-- The symbol table of a source: the first word is at address 0 (46_assembly_language R179). -/
def symbolTable (lines : List SourceLine) : List (String × Nat) := symbolsFrom 0 lines

/-- The first name that stands twice. -/
def firstDuplicate : List String → Option String
  | [] => none
  | name :: rest => if rest.contains name then some name else firstDuplicate rest

/-- A number as a word: two's complement, from -32768 to 65535 (46_assembly_language R168). -/
def numberWord (n : Int) : Except AsmError Word :=
  if -32768 ≤ n ∧ n ≤ 65535 then .ok (BitVec.ofInt 16 n) else .error (.outOfRange n)

/-- A number as a byte, from -128 to 255 (46_assembly_language R168). -/
def numberByte (n : Int) : Except AsmError Byte :=
  if -128 ≤ n ∧ n ≤ 255 then .ok (BitVec.ofInt 8 n) else .error (.outOfRange n)

/-- A literal as a word: a reference stands for its address (46_assembly_language R169), modulo 2^16 in a source larger than
the address space (DESIGN CHOICE, entry 30). -/
def literalWord (symbols : List (String × Nat)) : Literal → Except AsmError Word
  | .number n => numberWord n
  | .symbol name =>
    match symbols.lookup name with
    | some a => .ok (BitVec.ofNat 16 a)
    | none => .error (.undefinedSymbol name)

/-- The bytes of one source line in the image, with a zero byte of padding when their number is odd (46_assembly_language
R175; per line and not per run of byte items: DESIGN CHOICE, entry 25). -/
def packBytes : List Byte → List ImageWord
  | [] => []
  | [b] => [.pair b 0]
  | b0 :: b1 :: rest => .pair b0 b1 :: packBytes rest

/-- What a line emits (46_assembly_language R165, R170 to R174; 30_encoding R83). -/
def assembleLine (symbols : List (String × Nat)) : SourceLine → Except AsmError (List ImageWord)
  | .label _ => .ok []
  | .instr m ra rb none => .ok ((encode (m.regular ra rb)).map .word)
  | .instr m ra rb (some k) => (literalWord symbols k).map (fun imm => (encode (m.immediate ra rb imm)).map .word)
  | .halt => .ok ((encode (.hlt 0 0)).map .word)
  | .words items => (items.mapM (literalWord symbols)).map (fun ws => ws.map .word)
  | .bytes items => (items.mapM numberByte).map packBytes
  | .reserve n => .ok (packBytes (List.replicate n 0))
  | .text chars => .ok (packBytes (chars ++ [0]))

/-- The symbol table that a source is assembled and listed with; a reference declared twice is refused
(46_assembly_language R182, U24). -/
def resolvedSymbols (lines : List SourceLine) : Except AsmError (List (String × Nat)) :=
  match firstDuplicate ((symbolTable lines).map Prod.fst) with
  | some name => .error (.duplicateSymbol name)
  | none => .ok (symbolTable lines)

/-- The image of a source, or the first error (46_assembly_language R178). A source of any size is assembled: the largest
program is not stated (R181, N15), and only the load checks the size (DESIGN CHOICE, entries 21 and 30). -/
def assemble (lines : List SourceLine) : Except AsmError (List ImageWord) :=
  match resolvedSymbols lines with
  | .ok symbols => (lines.mapM (assembleLine symbols)).map List.flatten
  | .error e => .error e

/-- The object code of a source: its words from address 0 (46_assembly_language R180). -/
def objectCode (lines : List SourceLine) : Except AsmError (List Word) :=
  (assemble lines).map (fun image => image.map (ImageWord.toWord Config.byteOrder))

end Sys2Proof.Machine
end

