-- ==== Sys2Proof/Machine/AssemblerText.lean ====
section
/-! DEFINITION. The text of the assembly language (46_assembly_language R160 to R174) and of the object-code listing
(R180; 30_encoding R84). What no rule and no example of the manual shows is refused (R185, U24, U25; entry 16). -/

namespace Sys2Proof.Machine

/-! ## Characters -/

/-- White space inside a line: a space or a tabulation, which R162 names. That no other character is white space is the
model's (DESIGN CHOICE, entry 28). -/
def isBlank (c : Char) : Bool := c == ' ' || c == '\t'

/-- The text before the comment (46_assembly_language R161). -/
def stripComment (line : List Char) : List Char := line.takeWhile (· != ';')

/-- The text without white space before and after it. -/
def trimBlanks (cs : List Char) : List Char := ((cs.dropWhile isBlank).reverse.dropWhile isBlank).reverse

/-- The pieces between the characters that `sep` picks out; a text without one is a single piece. -/
def splitAtChar (sep : Char → Bool) : List Char → List (List Char)
  | [] => [[]]
  | c :: rest =>
    if sep c then [] :: splitAtChar sep rest
    else
      match splitAtChar sep rest with
      | [] => [[c]]
      | piece :: pieces => (c :: piece) :: pieces

/-- The pieces between white space. -/
def blankSeparated (cs : List Char) : List (List Char) := (splitAtChar isBlank cs).filter (fun p => !p.isEmpty)

/-! ## Numbers -/

/-- The value of a digit, hexadecimal ones in lower case (46_assembly_language R167). -/
def digitValue (c : Char) : Nat :=
  if '0' ≤ c ∧ c ≤ '9' then c.toNat - 48 else if 'a' ≤ c ∧ c ≤ 'f' then c.toNat - 87 else 99

/-- The value of digits in a base, most significant first. -/
def digitsValue (base : Nat) (cs : List Char) : Option Nat :=
  if cs.isEmpty || cs.any (fun c => base ≤ digitValue c) then none
  else some (cs.foldl (fun n c => base * n + digitValue c) 0)

/-- A number in base 16 (0x123), 8 (0123) or 10 (123) (46_assembly_language R167). -/
def readNat : List Char → Option Nat
  | '0' :: 'x' :: cs => digitsValue 16 cs
  | '0' :: c :: cs => digitsValue 8 (c :: cs)
  | cs => digitsValue 10 cs

/-- A number that may carry a minus sign (46_assembly_language R168). -/
def readInt : List Char → Option Int
  | '-' :: cs => (readNat cs).map (fun n => -(n : Int))
  | cs => (readNat cs).map (fun n => (n : Int))

/-- A character of a name, as in the examples (46_assembly_language R162). -/
def isNameChar (c : Char) : Bool := ('a' ≤ c && c ≤ 'z') || ('0' ≤ c && c ≤ '9') || c == '_'

/-! ## Registers and mnemonics -/

/-- The names of the registers (10_state R21, 46_assembly_language R166). -/
def registerNames : List (String × RegIdx) :=
  [("r0", 0), ("r1", 1), ("r2", 2), ("r3", 3), ("r4", 4), ("r5", 5), ("r6", 6), ("r7", 7), ("r8", 8), ("r9", 9),
   ("r10", 10), ("r11", 11), ("r12", 12), ("r13", 13), ("r14", 14), ("r15", 15), ("zr", 0), ("a0", 1), ("a1", 2),
   ("a2", 3), ("a3", 4), ("v0", 5), ("v1", 6), ("v2", 7), ("v3", 8), ("v4", 9), ("v5", 10), ("v6", 11), ("v7", 12),
   ("v8", 13), ("fp", 13), ("sp", 14), ("lr", 15)]

/-- A register operand (46_assembly_language R166). -/
def readRegister (cs : List Char) : Option RegIdx := registerNames.lookup (String.ofList cs)

/-- The spelling of a mnemonic, in lower case as in every example (46_assembly_language R164). -/
def Mnemonic.name : Mnemonic → String
  | .and => "and"
  | .or => "or"
  | .xor => "xor"
  | .add => "add"
  | .sub => "sub"
  | .tlt => "tlt"
  | .tge => "tge"
  | .tbl => "tbl"
  | .tae => "tae"
  | .teq => "teq"
  | .tne => "tne"
  | .lsl => "lsl"
  | .lsr => "lsr"
  | .asr => "asr"
  | .ldw => "ldw"
  | .ldb => "ldb"
  | .lbu => "lbu"
  | .stw => "stw"
  | .stb => "stb"
  | .blt => "blt"
  | .bge => "bge"
  | .bbl => "bbl"
  | .bae => "bae"
  | .beq => "beq"
  | .bne => "bne"

/-- The mnemonic of a spelling. -/
def readMnemonic (cs : List Char) : Option Mnemonic := allMnemonics.find? (fun m => m.name == String.ofList cs)

/-! ## Names -/

/-- The spelling of a mnemonic, of hlt or of a register. R162 does not say whether a reference may be called so; the model
refuses such a name, as U25 refuses an instruction line that is not indented (DESIGN CHOICE, entry 24). -/
def isReservedName (cs : List Char) : Bool :=
  (readMnemonic cs).isSome || (readRegister cs).isSome || cs == ['h', 'l', 't']

/-- The name of a reference, of any length (46_assembly_language R162; which names and lengths are allowed is open: DESIGN
CHOICE, entries 16 and 24). -/
def readName : List Char → Option String
  | [] => none
  | c :: cs =>
    if 'a' ≤ c ∧ c ≤ 'z' ∧ cs.all isNameChar ∧ isReservedName (c :: cs) = false then some (String.ofList (c :: cs))
    else none

/-- A number or a name (46_assembly_language R167, R169). -/
def readLiteral (cs : List Char) : Option Literal :=
  match readInt cs with
  | some n => some (.number n)
  | none => (readName cs).map Literal.symbol

/-! ## Lines -/

/-- An instruction line: two operands for the regular form, three for the immediate (46_assembly_language R165). Only the
comma is certain as the separator (R164), whose examples show white space after it; the model passes over any amount of
white space on both sides of a comma, before it too (DESIGN CHOICE, entry 28). -/
def readInstr (m : Mnemonic) (operands : List Char) : Option SourceLine :=
  match (splitAtChar (· == ',') operands).map trimBlanks with
  | [a, b] =>
    match readRegister a, readRegister b with
    | some ra, some rb => some (.instr m ra rb none)
    | _, _ => none
  | [a, b, k] =>
    match readRegister a, readRegister b, readLiteral k with
    | some ra, some rb, some imm => some (.instr m ra rb (some imm))
    | _, _, _ => none
  | _ => none

/-- A byte item: a number preceded by $ (46_assembly_language R172). -/
def readByteItem : List Char → Option Int
  | '$' :: cs => readInt cs
  | _ => none

/-- Word items or byte items (46_assembly_language R171, R172). -/
def readItems (items : List (List Char)) : Option SourceLine :=
  match items.mapM readByteItem with
  | some bs => some (.bytes bs)
  | none => (items.mapM readLiteral).map SourceLine.words

/-- A character that a string may hold, as one ASCII byte; no escape is described (46_assembly_language R174; entries 16,
18). -/
def readStringChar (c : Char) : Option Byte :=
  if 32 ≤ c.toNat ∧ c.toNat ≤ 126 ∧ c ≠ '"' ∧ c ≠ '\\' then some (BitVec.ofNat 8 c.toNat) else none

/-- A data line (46_assembly_language R171 to R174). -/
def readData (cs : List Char) : Option SourceLine :=
  match cs with
  | '"' :: rest =>
    if rest.getLast? = some '"' then (rest.dropLast.mapM readStringChar).map SourceLine.text else none
  | '[' :: rest =>
    if rest.getLast? = some ']' then (readNat rest.dropLast).map SourceLine.reserve else none
  | _ => readItems (blankSeparated cs)

/-- The contents of a line that starts with white space, without that white space and not empty
(46_assembly_language R162). -/
def readIndented (cs : List Char) : Option SourceLine :=
  let word := cs.takeWhile (fun c => !isBlank c)
  if word = ['h', 'l', 't'] then (if word.length = cs.length then some .halt else none)
  else
    match readMnemonic word with
    | some m => readInstr m (trimBlanks (cs.drop word.length))
    | none => readData cs

/-- One line of source: nothing, a reference in the first column, or an indented instruction or data line
(46_assembly_language R160, R162; D26). -/
def readLine (line : List Char) : Except AsmError (Option SourceLine) :=
  let body := trimBlanks (stripComment line)
  let refuse := Except.error (AsmError.badLine (String.ofList line))
  if body.isEmpty then .ok none
  else if (line.head?.map isBlank).getD false then
    match readIndented body with
    | some l => .ok (some l)
    | none => refuse
  else
    match readName body with
    | some name => .ok (some (.label name))
    | none => refuse

/-- The lines of a source text (46_assembly_language R160). The spec does not name the line end: the model ends a line with
one line feed or with the text, and a carriage return is a character of its line, which is therefore refused unless the
carriage return stands in a comment (DESIGN CHOICE, entry 29). -/
def readSource (text : String) : Except AsmError (List SourceLine) :=
  ((splitAtChar (· == '\n') text.toList).mapM readLine).map (fun ls => ls.filterMap id)

/-- The image of a source text (46_assembly_language R178). -/
def assembleText (text : String) : Except AsmError (List ImageWord) :=
  match readSource text with
  | .ok lines => assemble lines
  | .error e => .error e

/-! ## Disassembly and listing -/

/-- Four lower-case hexadecimal digits (46_assembly_language R180). -/
def hex4 (w : Word) : String :=
  String.ofList [Nat.digitChar (w.toNat / 4096), Nat.digitChar (w.toNat / 256 % 16), Nat.digitChar (w.toNat / 16 % 16),
    Nat.digitChar (w.toNat % 16)]

/-- The spelling of an instruction's mnemonic. -/
def instrName : Instr → String
  | .andR _ _ => "and"
  | .andI _ _ _ => "and"
  | .orR _ _ => "or"
  | .orI _ _ _ => "or"
  | .xorR _ _ => "xor"
  | .xorI _ _ _ => "xor"
  | .addR _ _ => "add"
  | .addI _ _ _ => "add"
  | .subR _ _ => "sub"
  | .subI _ _ _ => "sub"
  | .tltR _ _ => "tlt"
  | .tltI _ _ _ => "tlt"
  | .tgeR _ _ => "tge"
  | .tgeI _ _ _ => "tge"
  | .tblR _ _ => "tbl"
  | .tblI _ _ _ => "tbl"
  | .taeR _ _ => "tae"
  | .taeI _ _ _ => "tae"
  | .teqR _ _ => "teq"
  | .teqI _ _ _ => "teq"
  | .tneR _ _ => "tne"
  | .tneI _ _ _ => "tne"
  | .lslR _ _ => "lsl"
  | .lslI _ _ _ => "lsl"
  | .lsrR _ _ => "lsr"
  | .lsrI _ _ _ => "lsr"
  | .asrR _ _ => "asr"
  | .asrI _ _ _ => "asr"
  | .ldwR _ _ => "ldw"
  | .ldwI _ _ _ => "ldw"
  | .ldbR _ _ => "ldb"
  | .ldbI _ _ _ => "ldb"
  | .lbuR _ _ => "lbu"
  | .lbuI _ _ _ => "lbu"
  | .stwR _ _ => "stw"
  | .stwI _ _ _ => "stw"
  | .stbR _ _ => "stb"
  | .stbI _ _ _ => "stb"
  | .bltR _ _ => "blt"
  | .bltI _ _ _ => "blt"
  | .bgeR _ _ => "bge"
  | .bgeI _ _ _ => "bge"
  | .bblR _ _ => "bbl"
  | .bblI _ _ _ => "bbl"
  | .baeR _ _ => "bae"
  | .baeI _ _ _ => "bae"
  | .beqR _ _ => "beq"
  | .beqI _ _ _ => "beq"
  | .bneR _ _ => "bne"
  | .bneI _ _ _ => "bne"
  | .hlt _ _ => "hlt"

/-- A register printed by number (30_encoding R84). -/
def registerText (r : RegIdx) : String := "r" ++ toString r.val

/-- The disassembly: registers by number, the immediate as an unsigned decimal number (30_encoding R84, 46_assembly_language
R180). No space follows a comma, as in the listing of 95_test_vectors 1.1 and in the debugger's display (60_exceptions R232);
the listing of 95_test_vectors 1.2 and an example of R84 have one, and R164 calls such spaces uncertain (DESIGN CHOICE,
entry 23). -/
def disassemble (i : Instr) : String :=
  instrName i ++ " " ++ registerText i.fields.ra ++ "," ++ registerText i.fields.rb ++
    (match i.fields.imm with
    | some k => "," ++ toString k.toNat
    | none => "")

/-- The lines of the listing for consecutive words; only the first has a third column (46_assembly_language R180). -/
def listingLines (a : Word) (third : String) : List Word → List String
  | [] => []
  | w :: rest => (hex4 a ++ " " ++ hex4 w ++ third) :: listingLines (a + 2) "" rest

/-- The third column of a line's first word: the disassembly of an instruction, nothing for data. -/
def thirdColumn (line : SourceLine) (words : List Word) : String :=
  match line, words with
  | .instr _ _ _ _, w :: rest =>
    match decodeWords w (rest.headD 0) with
    | .ok i => " (" ++ disassemble i ++ ")"
    | .error _ => ""
  | .halt, _ => " (" ++ disassemble (.hlt 0 0) ++ ")"
  | _, _ => ""

/-- The listing of the lines from address a on. The largest program is not stated (46_assembly_language R181, N15): a source
of any size is listed, also one that no RAM holds, with its addresses modulo 2^16 (DESIGN CHOICE, entry 30). -/
def listingFrom (symbols : List (String × Nat)) (a : Word) : List SourceLine → Except AsmError (List String)
  | [] => .ok []
  | line :: rest =>
    match assembleLine symbols line, listingFrom symbols (a + BitVec.ofNat 16 line.size) rest with
    | .ok image, .ok lines =>
      let words := image.map (ImageWord.toWord Config.byteOrder)
      .ok (listingLines a (thirdColumn line words) words ++ lines)
    | .error e, _ => .error e
    | _, .error e => .error e

/-- The object-code listing of a source: the lines of its object file, or the error that assembling it meets
(46_assembly_language R180, R182). -/
def listing (lines : List SourceLine) : Except AsmError (List String) :=
  match resolvedSymbols lines with
  | .ok symbols => listingFrom symbols 0 lines
  | .error e => .error e

end Sys2Proof.Machine
end

