-- ==== Sys2Proof/Machine/ObjectFile.lean ====
section
/-! DEFINITION. The object file (46_assembly_language R180): the text of the listing, which mode `a` of the tool writes and
mode `s` reads. What of a line's third column is checked, and that empty lines are passed over, is the model's choice
(DESIGN CHOICE, entry 26). -/

namespace Sys2Proof.Machine

/-- The text of an object file: each line of the listing with its line end. -/
def objectText (lines : List String) : String := String.ofList (lines.flatMap (fun l => l.toList ++ ['\n']))

/-- A number of four lower-case hexadecimal digits. -/
def readHex4 (cs : List Char) : Option Word :=
  if cs.length = 4 then (digitsValue 16 cs).map (BitVec.ofNat 16) else none

/-- What may follow the second column: nothing, or a text in parentheses, which is not read further (entry 26). -/
def isThirdColumn (cs : List Char) : Bool :=
  cs.isEmpty || (cs.take 2 == [' ', '('] && cs.getLast? == some ')')

/-- One line: the address, a space, the word and the third column. -/
def readObjectLine (cs : List Char) : Option (Word × Word) :=
  match readHex4 (cs.take 4), cs.drop 4 with
  | some a, ' ' :: rest =>
    match readHex4 (rest.take 4) with
    | some w => if isThirdColumn (rest.drop 4) then some (a, w) else none
    | none => none
  | _, _ => none

/-- One line, or the error that names it. -/
def readObjectLineOrRefuse (cs : List Char) : Except AsmError (Word × Word) :=
  match readObjectLine cs with
  | some l => .ok l
  | none => .error (.badLine (String.ofList cs))

/-- The lines of an object file, as addresses and words. -/
def readObject (text : String) : Except AsmError (List (Word × Word)) :=
  ((splitAtChar (· == '\n') text.toList).filter (fun l => !l.isEmpty)).mapM readObjectLineOrRefuse

/-- The object file of a source (mode `a`). -/
def objectFile (lines : List SourceLine) : Except AsmError String := (listing lines).map objectText

/-- The start of a run from an object file (mode `s`; 70_reset_and_hazards R251), from the platform. -/
def State.launchObject (p : Platform) (text : String) : Option State :=
  match readObject text with
  | .ok lines => State.launchLines p lines
  | .error _ => none

end Sys2Proof.Machine
end

