-- ==== Sys2Proof/Machine/Library.lean ====
section
/-! DEFINITION. What software builds on the instructions (47_programming_conventions, 44_control_transfer R148): the
idioms as source lines, the roles of the registers in the calling convention, and the library routines as source text.
None of it is enforced by the machine (10_state R23). -/

namespace Sys2Proof.Machine

/-! ## Idioms -/

/-- zr (10_state R21). -/
def zr : RegIdx := 0

/-- sp (10_state R21). -/
def sp : RegIdx := 14

/-- a0 (10_state R21). -/
def a0 : RegIdx := 1

/-- fp (10_state R21). -/
def fp : RegIdx := 13

/-- lr (10_state R21). -/
def lr : RegIdx := 15

/-- A constant (R190). -/
def loadConstant (v : RegIdx) (k : Literal) : List SourceLine := [.instr .add v zr (some k)]

/-- A constant, the spelling with or (R190). -/
def loadConstantOr (v : RegIdx) (k : Literal) : List SourceLine := [.instr .or v zr (some k)]

/-- A cleared register (R190). -/
def clear (v : RegIdx) : List SourceLine := [.instr .xor v v none]

/-- A copy (R191). -/
def copy (dst src : RegIdx) : List SourceLine := [.instr .add dst src (some (.number 0))]

/-- A copy, the spelling with or (R191). -/
def copyOr (dst src : RegIdx) : List SourceLine := [.instr .or dst src (some (.number 0))]

/-- The exchange of two registers (R191); it clears the register when both are the same. -/
def swap (a b : RegIdx) : List SourceLine := [.instr .xor a b none, .instr .xor b a none, .instr .xor a b none]

/-- The operation of two sources and a third register as destination (R192); wrong when dst is src2. -/
def threeRegister (m : Mnemonic) (dst src1 src2 : RegIdx) : List SourceLine := copy dst src1 ++ [.instr m dst src2 none]

/-- One's complement (R193). -/
def complement (v : RegIdx) : List SourceLine := [.instr .xor v v (some (.number (-1)))]

/-- Two's complement (R193). -/
def negate (v : RegIdx) : List SourceLine := complement v ++ [.instr .add v v (some (.number 1))]

/-- Two's complement of one register in another: sub from a cleared register (R193); wrong when they are the same. -/
def negateInto (dst src : RegIdx) : List SourceLine := clear dst ++ [.instr .sub dst src none]

/-- Push of a word: the stack is full and descending (R194). -/
def push (v : RegIdx) : List SourceLine := [.instr .sub sp sp (some (.number 2)), .instr .stw v sp none]

/-- Pop of a word (R194). -/
def pop (v : RegIdx) : List SourceLine := [.instr .ldw v sp none, .instr .add sp sp (some (.number 2))]

/-- The accesses of several words on the stack at displacements 0, 2, 4, … (R195). -/
def atDisplacements (m : Mnemonic) (d : Nat) : List RegIdx → List SourceLine
  | [] => []
  | v :: rest => .instr m v sp (some (.number d)) :: atDisplacements m (d + 2) rest

/-- Push of several words at once (R195). -/
def pushAll (vs : List RegIdx) : List SourceLine :=
  .instr .sub sp sp (some (.number (2 * vs.length))) :: atDisplacements .stw 0 vs

/-- Pop of several words at once, the last first (R195). -/
def popAll (vs : List RegIdx) : List SourceLine :=
  (atDisplacements .ldw 0 vs).reverse ++ [.instr .add sp sp (some (.number (2 * vs.length)))]

/-- fp set to sp, before a function makes room for its locals (R195). R195 shows no code for it, and a copy may be add or or
(R191): the model writes it with add (DESIGN CHOICE, entry 32). -/
def setFrame : List SourceLine := copy fp sp

/-- sp set back to fp, which releases the locals (R195). R195 shows no code for it, and a copy may be add or or (R191): the
model writes it with add (DESIGN CHOICE, entry 32). -/
def releaseFrame : List SourceLine := copy sp fp

/-- The word of an array at a label, by an index: `offset` receives twice the index (R200). -/
def loadArrayWord (dst offset index : RegIdx) (array : Literal) : List SourceLine :=
  [.instr .lsl offset index (some (.number 1)), .instr .ldw dst offset (some array)]

/-- The unconditional jump (44_control_transfer R148). -/
def jump (target : Literal) : List SourceLine := [.instr .beq zr zr (some target)]

/-- The jump to the address in a register (44_control_transfer R148). -/
def jumpRegister (r : RegIdx) : List SourceLine := [.instr .beq zr r none]

/-- The call: the return address is a label of the caller's (R198). -/
def call (function returnLabel : String) : List SourceLine :=
  loadConstant lr (.symbol returnLabel) ++ jump (.symbol function) ++ [.label returnLabel]

/-- The return (R198). -/
def functionReturn : List SourceLine := jumpRegister lr

/-- The branch if a > b, signed: `blt` with the registers exchanged (44_control_transfer R148). -/
def branchGreater (a b : RegIdx) (target : Literal) : List SourceLine := [.instr .blt b a (some target)]

/-- The branch if a <= b, signed: `bge` with the registers exchanged (44_control_transfer R148). -/
def branchLessEqual (a b : RegIdx) (target : Literal) : List SourceLine := [.instr .bge b a (some target)]

/-- The loop `while (1)` (44_control_transfer R148). -/
def whileTrue (start : String) (body : List SourceLine) : List SourceLine :=
  [.label start] ++ body ++ jump (.symbol start)

/-- The loop `while (a < b)`: the test that leaves it is the opposite of the condition (44_control_transfer R148). -/
def whileLess (a b : RegIdx) (start finish : String) (body : List SourceLine) : List SourceLine :=
  [.label start, .instr .bge a b (some (.symbol finish))] ++ body ++ jump (.symbol start) ++ [.label finish]

/-- The loop `do … while (a < b)`: the test just before the backward jump (44_control_transfer R148). Its listing is lost
(N6); that the test is a branch of its own, which leaves the loop and which the jump follows, is read from listing 3.5
(95_test_vectors 2.5), whose loops end so (DEDUCED, entry 31). -/
def doWhileLess (a b : RegIdx) (start finish : String) (body : List SourceLine) : List SourceLine :=
  [.label start] ++ body ++ [.instr .bge a b (some (.symbol finish))] ++ jump (.symbol start) ++ [.label finish]

/-! ## The calling convention -/

/-- Who saves a register across a call (R196). -/
inductive SavedBy where
  | nobody
  | caller
  | callee
  deriving DecidableEq, Repr

/-- The convention (R196, R197): a0 to a3 are the caller's to save, v0 to v7, fp, sp and lr the callee's if it modifies
them, zr is constant. -/
def savedBy (r : RegIdx) : SavedBy :=
  if r = 0 then .nobody else if r.val ≤ 4 then .caller else .callee

/-- The displacement from a0 of the i-th of the arguments passed on the stack (R199). -/
def stackArgument (i : Nat) : Literal := .number (2 * i)

/-- The arguments on the stack, the first at sp + 0 and the last stored first, and their address in a0 (R199). -/
def passOnStack (vs : List RegIdx) : List SourceLine :=
  .instr .sub sp sp (some (.number (2 * vs.length))) :: (atDisplacements .stw 0 vs).reverse ++ copy a0 sp

/-! ## Library routines -/

/-- `mul` (R201). -/
def mulSource : String :=
"mul
    xor a2,a2                 ; a2 = 0 (accumulator)
repmul01
    beq a1,zr,endmul01        ; while a1 != 0
    and r4,a1,1               ;   a3 = a1 & 1
    beq r4,zr,skipmul01       ;   if a3 != 0
    add a2,a0                 ;     a2 += a0
skipmul01
    lsl a0,a0,1
    lsr a1,a1,1
    beq zr,zr,repmul01
endmul01
    add a0,a2,0               ; a0 = a2
    beq zr,lr                 ; return
"

/-- `udiv` (R203). -/
def udivSource : String :=
"udiv
    xor a2,a2                 ; a2 = 0 (quotient)
    add a3,zr,1               ; a3 = 1 (current quotient bit)
    bne a1,zr,repudiv01       ; if a1 == 0
    xor a0,a0                 ;   a0 = 0
    beq zr,lr                 ;   return
repudiv01
    blt a1,zr,repudiv02       ; while bit 15 of a1 is clear
    lsl a1,a1,1
    lsl a3,a3,1
    beq zr,zr,repudiv01
repudiv02
    beq a3,zr,rependudiv02    ; while a3 != 0
    bbl a0,a1,skipudiv01      ;   if a0 >= a1 (unsigned)
    sub a0,a1
    add a2,a3
skipudiv01
    lsr a1,a1,1
    lsr a3,a3,1
    beq zr,zr,repudiv02
rependudiv02
    add a1,a0,0               ; a1 = a0 (remainder)
    add a0,a2,0               ; a0 = a2 (quotient)
    beq zr,lr                 ; return
"

/-- `div` (R202); it calls `udiv`, whose source follows it. -/
def divSource : String :=
"div
    xor a2,a2                 ; a2 = 0 (sign of the quotient)
    bge a0,zr,skipdiv01       ; if a0 < 0
    xor a0,a0,-1
    add a0,a0,1               ;   a0 = -a0
    add a2,zr,1               ;   a2 = 1
skipdiv01
    bge a1,zr,skipdiv02       ; if a1 < 0
    xor a1,a1,-1
    add a1,a1,1               ;   a1 = -a1
    xor a2,a2,1               ;   a2 ^= 1
skipdiv02
    sub sp,sp,4               ; push a2, lr
    stw a2,sp,0
    stw lr,sp,2
    add lr,zr,retudiv01
    beq zr,zr,udiv            ; udiv()
retudiv01
    ldw lr,sp,2               ; pop lr, a2
    ldw a2,sp,0
    add sp,sp,4
    beq a2,zr,skipdiv03       ; if a2 != 0
    xor a0,a0,-1
    add a0,a0,1               ;   a0 = -a0
skipdiv03
    beq zr,lr                 ; return
" ++ udivSource

end Sys2Proof.Machine
end

