-- ==== Sys2Proof/Safety.lean ====
section
/-! DEFINITION. What counts as a good state and a safe step, and the terms in which claims say what an instruction
changes and what it leaves. -/

namespace Sys2Proof.Machine

/-! ## Good states -/

/-- An event of the trace has the form of its service (60_exceptions R222): a string event comes from a write string
service and holds no zero byte (R226), a value event from one of the other six. -/
def eventWf : OutEvent → Bool
  | .value svc _ => !takesString svc
  | .string svc bytes => takesString svc && bytes.all (fun b => b != 0)

/-- The invariant of the machine: memory has its canonical form and the trace holds only events of the services' forms. -/
def GoodState (s : State) : Prop := s.mem.wf = true ∧ s.output.all eventWf = true

/-! ## What an instruction leaves unchanged -/

/-- No general register changes. -/
def SameRegs (s t : State) : Prop := ∀ k, t.x k = s.x k

/-- Register ra holds v, and no other general register changes; for ra = 0 none does (10_state R22). -/
def RegWritten (s t : State) (ra : RegIdx) (v : Word) : Prop := ∀ k, t.x k = if k = ra ∧ k ≠ 0 then v else s.x k

/-- RAM has as many bytes as before, and no byte of it changes. -/
def SameRam (s t : State) : Prop := t.mem.words = s.mem.words ∧ ∀ a, t.mem.byteAt a = s.mem.byteAt a

/-- RAM has as many bytes as before; the bytes at the n addresses from a on may change, no other byte does. -/
def SameRamBut (a n : Nat) (s t : State) : Prop :=
  t.mem.words = s.mem.words ∧ ∀ b, b < a ∨ a + n ≤ b → t.mem.byteAt b = s.mem.byteAt b

/-- Neither the trace nor the consumption of input changes, and the machine is halted if and only if it was. -/
def SameHost (s t : State) : Prop := t.output = s.output ∧ t.inputsRead = s.inputsRead ∧ t.halted = s.halted

/-- An instruction that only computes: v goes to x[ra], pc becomes pc', nothing else changes (the cycle count apart). -/
def Computes (s t : State) (ra : RegIdx) (v pc' : Word) : Prop :=
  RegWritten s t ra v ∧ t.pc = pc' ∧ SameRam s t ∧ SameHost s t

/-- An instruction that only sets pc (the cycle count apart). -/
def Jumps (s t : State) (pc' : Word) : Prop := SameRegs s t ∧ t.pc = pc' ∧ SameRam s t ∧ SameHost s t

/-- An instruction that appends the event e to the trace and moves on; no register and no memory changes. -/
def Emits (s t : State) (e : OutEvent) (pc' : Word) : Prop :=
  SameRegs s t ∧ t.pc = pc' ∧ SameRam s t ∧ t.output = s.output ++ [e] ∧ t.inputsRead = s.inputsRead ∧ t.halted = s.halted

/-! ## Words in memory as bytes -/

/-- The word of two bytes at consecutive addresses (20_memory R41). -/
def joinBytes (order : ByteOrder) (lower higher : Byte) : Word :=
  match order with
  | .big => lower ++ higher
  | .little => higher ++ lower

/-- `WordAt(a)` through the bytes at a and a + 1 (20_memory R41). -/
def ramWord (m : Memory) (a : Nat) : Word := joinBytes Config.byteOrder (m.byteAt a) (m.byteAt (a + 1))

/-- A word can be accessed at a: a is even and below MEM_SIZE (20_memory R44, R45). -/
def WordInRam (m : Memory) (a : Word) : Prop := a.toNat % 2 = 0 ∧ a.toNat < m.size

/-- A byte can be accessed at a: a is below MEM_SIZE (20_memory R44). -/
def ByteInRam (m : Memory) (a : Word) : Prop := a.toNat < m.size

/-- The bytes stand one after another in memory from address a. -/
def BytesAt (m : Memory) (a : Nat) (bytes : List Byte) : Prop :=
  ∀ (i : Nat) (h : i < bytes.length), m.byteAt (a + i) = bytes[i]

/-! ## States that differ only in what the host alone sees -/

/-- The two states agree in all that an instruction can read: the trace and the cycle count apart (10_state R32). -/
def SameProgramState (s s' : State) : Prop :=
  s.regs = s'.regs ∧ s.pc = s'.pc ∧ s.mem = s'.mem ∧ s.halted = s'.halted ∧ s.inputsRead = s'.inputsRead

/-! ## Both forms of an instruction at once -/

/-- The instruction word with the given base word (30_encoding R83). -/
def codeWord (base : Nat) (ra rb : RegIdx) : Word := BitVec.ofNat 16 (base + 16 * ra.val + rb.val)

/-- An instruction of the computing classes, in both forms (30_encoding R76): its words; and in every state it completes,
with `op` of its two sources in x[ra], pc past its own words and nothing else changed. -/
def ComputesAs (regular : RegIdx → RegIdx → Instr) (immediate : RegIdx → RegIdx → Word → Instr) (base : Nat)
    (op : Word → Word → Word) : Prop :=
  ∀ (ra rb : RegIdx) (imm : Word) (s : State),
    encode (regular ra rb) = [codeWord base ra rb] ∧
    encode (immediate ra rb imm) = [codeWord (base + 0x0100) ra rb, imm] ∧
    (∃ t, exec (regular ra rb) s = .next t ∧ Computes s t ra (op (s.x ra) (s.x rb)) (s.pc + 2)) ∧
    (∃ t, exec (immediate ra rb imm) s = .next t ∧ Computes s t ra (op (s.x rb) imm) (s.pc + 4))

/-- A branch, in both forms (44_control_transfer R140): its words; and in every state it completes, with pc at the target
if the condition holds of its two values, else past its own words, and nothing else changed. -/
def BranchesAs (regular : RegIdx → RegIdx → Instr) (immediate : RegIdx → RegIdx → Word → Instr) (base : Nat)
    (cond : Word → Word → Bool) : Prop :=
  ∀ (ra rb : RegIdx) (imm : Word) (s : State),
    encode (regular ra rb) = [codeWord base ra rb] ∧
    encode (immediate ra rb imm) = [codeWord (base + 0x0100) ra rb, imm] ∧
    (∃ t, exec (regular ra rb) s = .next t ∧ Jumps s t (if cond (s.x ra) 0 then s.x rb else s.pc + 2)) ∧
    (∃ t, exec (immediate ra rb imm) s = .next t ∧ Jumps s t (if cond (s.x ra) (s.x rb) then imm else s.pc + 4))

/-- The instruction i is one of the two forms of a data transfer with data register ra, and has effective address ea and
length len in the state s (43_data_transfer R135). -/
def TransferForm (regular : RegIdx → RegIdx → Instr) (immediate : RegIdx → RegIdx → Word → Instr) (i : Instr)
    (ra : RegIdx) (s : State) (ea len : Word) : Prop :=
  (∃ rb, i = regular ra rb ∧ ea = effAddrR s rb ∧ len = 2) ∨
  (∃ rb imm, i = immediate ra rb imm ∧ ea = effAddrI s rb imm ∧ len = 4)

/-- The words of both forms of an instruction, from its base word (30_encoding R83). -/
def HasWords (regular : RegIdx → RegIdx → Instr) (immediate : RegIdx → RegIdx → Word → Instr) (base : Nat) : Prop :=
  ∀ (ra rb : RegIdx) (imm : Word),
    encode (regular ra rb) = [codeWord base ra rb] ∧
    encode (immediate ra rb imm) = [codeWord (base + 0x0100) ra rb, imm]

/-! ## The service table as numbers -/

/-- The six output services that take a value, with their addresses (60_exceptions R220). -/
def valueServices : List (OutputService × Word) :=
  [(.writeIntLn, 0xf000), (.writeInt, 0xf002), (.writeCharLn, 0xf004), (.writeChar, 0xf006), (.writeHexLn, 0xf00c),
   (.writeHex, 0xf00e)]

/-- The two output services that take a string, with their addresses (60_exceptions R220). -/
def stringServices : List (OutputService × Word) := [(.writeStringLn, 0xf008), (.writeString, 0xf00a)]

/-- The address of an output service (60_exceptions R220). -/
def IsOutputAddress (a : Word) : Prop := a ∈ (valueServices ++ stringServices).map Prod.snd

/-- The address of an input service (60_exceptions R220). -/
def IsInputAddress (a : Word) : Prop := a ∈ ([0xf010, 0xf014, 0xf018, 0xf01c] : List Word)

/-- The instruction i performs the output service svc at address ea with the value v (60_exceptions R221, R224 to R226):
its event goes to the end of the trace, pc becomes pc' and nothing else changes; a write string with no zero byte in RAM
from address v on is the fault at the first address outside RAM. -/
def PerformsService (i : Instr) (s : State) (svc : OutputService) (ea v pc' : Word) : Prop :=
  ((svc, ea) ∈ valueServices → ∃ t, exec i s = .next t ∧ Emits s t (.value svc v) pc') ∧
  ((svc, ea) ∈ stringServices →
    (∀ bytes, v.toNat + bytes.length < s.mem.size → (∀ b ∈ bytes, b ≠ 0) → BytesAt s.mem v.toNat (bytes ++ [0]) →
      ∃ t, exec i s = .next t ∧ Emits s t (.string svc bytes) pc') ∧
    ((∀ b, v.toNat ≤ b → b < s.mem.size → s.mem.byteAt b ≠ 0) →
      exec i s = .fault (.accessFault (if v.toNat < s.mem.size then BitVec.ofNat 16 s.mem.size else v) .read)))

/-! ## Declared bytes -/

/-- The bytes that a data line declares by byte address, without padding (46_assembly_language R172, R173, R174). -/
def declaredBytes : SourceLine → List Byte
  | .label _ => []
  | .instr _ _ _ _ => []
  | .halt => []
  | .words _ => []
  | .bytes items => items.map (BitVec.ofInt 8)
  | .reserve n => List.replicate n 0
  | .text chars => chars ++ [0]

/-- Bytes with the zero byte after an odd number of them (46_assembly_language R175). -/
def withPadding (bytes : List Byte) : List Byte := if bytes.length % 2 = 1 then bytes ++ [0] else bytes

/-! ## Classes of instructions -/

/-- The instruction is a branch (44_control_transfer). -/
def isBranch (i : Instr) : Bool := i.fields.opcode == 0b100

/-- The instruction is a load or a store (43_data_transfer). -/
def isDataTransfer (i : Instr) : Bool := i.fields.opcode == 0b010

/-- The instruction is hlt (45_halt). -/
def isHalt (i : Instr) : Bool := i.fields.opcode == 0b111

/-- The length of an instruction in bytes, as a word (30_encoding R73). -/
def lengthWord (i : Instr) : Word := if i.fields.imm.isSome then 4 else 2

end Sys2Proof.Machine
end

