-- ==== Sys2Proof/Certificates/Slice0/Obligations.lean ====
section
/-! DEFINITION. The statements for the provers. Each docstring names the rule of spec/ it formalises, or says what of it
is a decision of the spec (D<n>) or a choice of the model (entry <n>). -/

open Sys2Proof Sys2Proof.Machine

/-! ## The computing classes -/

/-- R100, R101, R102: and, or and xor in both forms. -/
def Obligations.AndOrXorComputeBitwise : Prop :=
  ComputesAs .andR .andI 0x0000 (fun a b => a &&& b) ∧
  ComputesAs .orR .orI 0x0400 (fun a b => a ||| b) ∧
  ComputesAs .xorR .xorI 0x0600 (fun a b => a ^^^ b)

/-- R103, R104: add and sub in both forms: the sum and the difference of the two sources as numbers, modulo 2^16 (the wrap
is decision D8 of the spec, entry 19); nothing records a carry or a borrow. -/
def Obligations.AddSubComputeModulo65536 : Prop :=
  ComputesAs .addR .addI 0x0800 (fun a b => BitVec.ofNat 16 ((a.toNat + b.toNat) % 65536)) ∧
  ComputesAs .subR .subI 0x0a00 (fun a b => BitVec.ofInt 16 (((a.toNat : Int) - (b.toNat : Int)) % 65536))

/-- R110, R111: tlt and tge compare the two's-complement values; the result is the whole word 1 or 0. -/
def Obligations.TltTgeCompareSigned : Prop :=
  ComputesAs .tltR .tltI 0xa000 (fun a b => if a.toInt < b.toInt then 1 else 0) ∧
  ComputesAs .tgeR .tgeI 0xa200 (fun a b => if a.toInt ≥ b.toInt then 1 else 0)

/-- R112, R113: tbl and tae compare the unsigned values. -/
def Obligations.TblTaeCompareUnsigned : Prop :=
  ComputesAs .tblR .tblI 0xa800 (fun a b => if a.toNat < b.toNat then 1 else 0) ∧
  ComputesAs .taeR .taeI 0xaa00 (fun a b => if a.toNat ≥ b.toNat then 1 else 0)

/-- R114, R115: teq and tne compare all 16 bits. -/
def Obligations.TeqTneCompareAllBits : Prop :=
  ComputesAs .teqR .teqI 0xb000 (fun a b => if a = b then 1 else 0) ∧
  ComputesAs .tneR .tneI 0xb200 (fun a b => if a = b then 0 else 1)

/-- R120: lsl by n ≤ 15 multiplies by 2^n modulo 2^16 (decision D8); from 16 on the result is the open parameter SHIFT_OVER
(decision D6, entry 5), for each value it may have. -/
def Obligations.LslMultipliesByPowerOfTwo : Prop :=
  ComputesAs .lslR .lslI 0x3000
    (fun v n => if n.toNat ≤ 15 then BitVec.ofNat 16 (v.toNat * 2 ^ n.toNat % 65536) else Config.shiftOver .lsl v n)

/-- R121: lsr by n ≤ 15 is the floor of the unsigned value over 2^n; from 16 on SHIFT_OVER
(D6, entry 5). -/
def Obligations.LsrDividesUnsigned : Prop :=
  ComputesAs .lsrR .lsrI 0x3400
    (fun v n => if n.toNat ≤ 15 then BitVec.ofNat 16 (v.toNat / 2 ^ n.toNat) else Config.shiftOver .lsr v n)

/-- R122: asr by n ≤ 15 is the floor of the two's-complement value over 2^n, toward minus infinity; from 16 on
SHIFT_OVER (D6, entry 5). -/
def Obligations.AsrDividesSignedTowardMinusInfinity : Prop :=
  ComputesAs .asrR .asrI 0x3600
    (fun v n =>
      if n.toNat ≤ 15 then BitVec.ofInt 16 (Int.fdiv v.toInt (2 ^ n.toNat)) else Config.shiftOver .asr v n)

/-! ## Branches -/

/-- From R140, R141, R142: blt and bge decide by the two's-complement values; the regular form compares with 0. The
immediate form that is not taken goes to pc + 4: conflict C1 as the spec settles it (entry 20), not the manual's printed
pc + 2. -/
def Obligations.BltBgeBranchSigned : Prop :=
  BranchesAs .bltR .bltI 0x8000 (fun a b => decide (a.toInt < b.toInt)) ∧
  BranchesAs .bgeR .bgeI 0x8200 (fun a b => decide (a.toInt ≥ b.toInt))

/-- From R140, R143, R144: bbl and bae decide by the unsigned values. The immediate form that is not
taken goes to pc + 4: conflict C1 as the spec settles it (entry 20), not the manual's printed pc + 2. -/
def Obligations.BblBaeBranchUnsigned : Prop :=
  BranchesAs .bblR .bblI 0x8800 (fun a b => decide (a.toNat < b.toNat)) ∧
  BranchesAs .baeR .baeI 0x8a00 (fun a b => decide (a.toNat ≥ b.toNat))

/-- From R140, R145, R146: beq and bne decide by equality. The immediate form that is not
taken goes to pc + 4: conflict C1 as the spec settles it (entry 20), not the manual's printed pc + 2. -/
def Obligations.BeqBneBranchOnEquality : Prop :=
  BranchesAs .beqR .beqI 0x9000 (fun a b => decide (a = b)) ∧
  BranchesAs .bneR .bneI 0x9200 (fun a b => decide (a ≠ b))

/-- R149, from R143 and R144: the regular bbl is never taken and the regular bae always is, whatever x[ra] holds. -/
def Obligations.RegularBblNeverRegularBaeAlwaysTaken : Prop :=
  ∀ (ra rb : RegIdx) (s : State),
    (∃ t, exec (.bblR ra rb) s = .next t ∧ Jumps s t (s.pc + 2)) ∧
    (∃ t, exec (.baeR ra rb) s = .next t ∧ Jumps s t (s.x rb))

/-! ## hlt -/

/-- hlt, with any register fields, completes with `halted` set and pc, registers, memory, trace and input as they were;
the state it leads to has no successor. The register fields (D5), the value of pc (D18) and the stop by name (entry 10)
are decisions. -/
def Obligations.HltHaltsForGood : Prop :=
  ∀ (ra rb : RegIdx) (s : State),
    encode (.hlt ra rb) = [codeWord 0xf800 ra rb] ∧
    ∃ t, exec (.hlt ra rb) s = .next t ∧ t.halted = true ∧ t.pc = s.pc ∧ SameRegs s t ∧ SameRam s t ∧
      t.output = s.output ∧ t.inputsRead = s.inputsRead ∧ step t = .fault .halted

/-! ## Loads -/

/-- ldw at an even address in RAM: the word of the two bytes there, in the order of BYTE_ORDER, goes to x[ra]; nothing
else changes. The words of ldw have the base 0x4000. -/
def Obligations.LdwLoadsRamWord : Prop :=
  HasWords .ldwR .ldwI 0x4000 ∧
  ∀ (i : Instr) (ra : RegIdx) (s : State) (ea len : Word), TransferForm .ldwR .ldwI i ra s ea len → WordInRam s.mem ea →
    ∃ t, exec i s = .next t ∧ Computes s t ra (ramWord s.mem ea.toNat) (s.pc + len)

/-- ldw at a read int, read char or read hex address: the oracle's next value goes to x[ra] and one answer is consumed,
even for ra = 0, where the value is dropped (D23). The oracle is the model's (entry 7); the statement holds for each. -/
def Obligations.LdwReadsServiceValue : Prop :=
  ∀ (i : Instr) (ra : RegIdx) (s : State) (ea len : Word), TransferForm .ldwR .ldwI i ra s ea len →
    ea ∈ ([0xf010, 0xf014, 0xf01c] : List Word) →
    ∃ t, exec i s = .next t ∧ RegWritten s t ra (Config.inputValue s.inputsRead) ∧ t.pc = s.pc + len ∧ SameRam s t ∧
      t.output = s.output ∧ t.halted = s.halted ∧ t.inputsRead = s.inputsRead + 1

/-- ldw at the read string address: with the bytes typed and a terminator inside RAM from address x[ra], they are stored
there, so that a write string would read the typed bytes back, no other byte changes, and x[ra] receives the oracle's
value; else the fault names the first address outside RAM. The buffer is at the old x[ra]. D17; the oracle is the model's
(entries 7, 15). -/
def Obligations.LdwReadsStringIntoBuffer : Prop :=
  ∀ (i : Instr) (ra : RegIdx) (s : State) (ea len : Word), s.mem.wf = true →
    TransferForm .ldwR .ldwI i ra s ea len → ea = 0xf018 →
    let typed : List Byte := (Config.inputBytes s.inputsRead).map Subtype.val
    if (s.x ra).toNat + typed.length < s.mem.size then
      ∃ t, exec i s = .next t ∧ RegWritten s t ra (Config.inputValue s.inputsRead) ∧ t.pc = s.pc + len ∧
        BytesAt t.mem (s.x ra).toNat (typed ++ [0]) ∧ SameRamBut (s.x ra).toNat (typed.length + 1) s t ∧
        t.mem.stringAt (s.x ra) = .ok typed ∧
        t.output = s.output ∧ t.halted = s.halted ∧ t.inputsRead = s.inputsRead + 1
    else
      exec i s =
        .fault (.accessFault (if (s.x ra).toNat < s.mem.size then BitVec.ofNat 16 s.mem.size else s.x ra) .write)

/-- Where ldw faults: at an odd address (D2), before the map is looked at (D24), and at an even address that is neither in
RAM nor an input service (D7, D16). -/
def Obligations.LdwFaultsOffTheMap : Prop :=
  ∀ (i : Instr) (ra : RegIdx) (s : State) (ea len : Word), TransferForm .ldwR .ldwI i ra s ea len →
    (ea.toNat % 2 = 1 → exec i s = .fault (.misalignedAccess ea)) ∧
    (ea.toNat % 2 = 0 → s.mem.size ≤ ea.toNat → ¬ IsInputAddress ea → exec i s = .fault (.accessFault ea .read))

/-- ldb and lbu at any address in RAM, odd or even: the byte, sign-extended or zero-extended, goes to x[ra]; nothing else
changes. The words of ldb and lbu have the bases 0x4400 and 0x4600. -/
def Obligations.LdbLbuLoadRamByte : Prop :=
  (HasWords .ldbR .ldbI 0x4400 ∧ HasWords .lbuR .lbuI 0x4600) ∧
  (∀ (i : Instr) (ra : RegIdx) (s : State) (ea len : Word), TransferForm .ldbR .ldbI i ra s ea len → ByteInRam s.mem ea →
    ∃ t, exec i s = .next t ∧
      Computes s t ra (BitVec.ofInt 16 (s.mem.byteAt ea.toNat).toInt) (s.pc + len)) ∧
  (∀ (i : Instr) (ra : RegIdx) (s : State) (ea len : Word), TransferForm .lbuR .lbuI i ra s ea len → ByteInRam s.mem ea →
    ∃ t, exec i s = .next t ∧
      Computes s t ra (BitVec.ofNat 16 (s.mem.byteAt ea.toNat).toNat) (s.pc + len))

/-- ldb and lbu fault at every address outside RAM, service addresses included (D7, D16). -/
def Obligations.LdbLbuFaultOutsideRam : Prop :=
  (∀ (i : Instr) (ra : RegIdx) (s : State) (ea len : Word), TransferForm .ldbR .ldbI i ra s ea len → ¬ ByteInRam s.mem ea →
    exec i s = .fault (.accessFault ea .read)) ∧
  (∀ (i : Instr) (ra : RegIdx) (s : State) (ea len : Word), TransferForm .lbuR .lbuI i ra s ea len → ¬ ByteInRam s.mem ea →
    exec i s = .fault (.accessFault ea .read))

/-! ## Stores -/

/-- stw at an even address in RAM: the word read back there, through its two bytes, is x[ra] (zero for ra = 0); no other
byte, no register and nothing else changes. The words of stw have the base 0x4800. -/
def Obligations.StwStoresRamWord : Prop :=
  HasWords .stwR .stwI 0x4800 ∧
  ∀ (i : Instr) (ra : RegIdx) (s : State) (ea len : Word), s.mem.wf = true →
    TransferForm .stwR .stwI i ra s ea len → WordInRam s.mem ea →
    ∃ t, exec i s = .next t ∧ ramWord t.mem ea.toNat = s.x ra ∧ SameRamBut ea.toNat 2 s t ∧ SameRegs s t ∧
      t.pc = s.pc + len ∧ SameHost s t

/-- stw at one of the six output services that take a value: the event with the whole 16-bit x[ra] goes to the end of the
trace; no register and no memory changes. D17: the trace is of events, not of text. -/
def Obligations.StwEmitsValue : Prop :=
  ∀ (i : Instr) (ra : RegIdx) (s : State) (ea len : Word) (svc : OutputService),
    TransferForm .stwR .stwI i ra s ea len → (svc, ea) ∈ valueServices →
    ∃ t, exec i s = .next t ∧ Emits s t (.value svc (s.x ra)) (s.pc + len)

/-- stw at a write string service: with a zero byte in RAM at or after address x[ra], the event holds the bytes up to and
not including the first zero byte; no register and no memory changes. D17. -/
def Obligations.StwEmitsString : Prop :=
  ∀ (i : Instr) (ra : RegIdx) (s : State) (ea len : Word) (svc : OutputService) (bytes : List Byte),
    TransferForm .stwR .stwI i ra s ea len → (svc, ea) ∈ stringServices →
    (s.x ra).toNat + bytes.length < s.mem.size → (∀ b ∈ bytes, b ≠ 0) →
    BytesAt s.mem (s.x ra).toNat (bytes ++ [0]) →
    ∃ t, exec i s = .next t ∧ Emits s t (.string svc bytes) (s.pc + len)

/-- stw at a write string service with no zero byte in RAM from address x[ra] on: the fault names the first address
outside RAM that is reached (D17, D24). -/
def Obligations.StwFaultsOnUnterminatedString : Prop :=
  ∀ (i : Instr) (ra : RegIdx) (s : State) (ea len : Word) (svc : OutputService),
    TransferForm .stwR .stwI i ra s ea len → (svc, ea) ∈ stringServices →
    (∀ b, (s.x ra).toNat ≤ b → b < s.mem.size → s.mem.byteAt b ≠ 0) →
    exec i s = .fault (.accessFault (if (s.x ra).toNat < s.mem.size then BitVec.ofNat 16 s.mem.size else s.x ra) .read)

/-- Where stw faults: at an odd address (D2), before the map is looked at (D24), and at an even address that is neither in
RAM nor an output service (D7, D16). -/
def Obligations.StwFaultsOffTheMap : Prop :=
  ∀ (i : Instr) (ra : RegIdx) (s : State) (ea len : Word), TransferForm .stwR .stwI i ra s ea len →
    (ea.toNat % 2 = 1 → exec i s = .fault (.misalignedAccess ea)) ∧
    (ea.toNat % 2 = 0 → s.mem.size ≤ ea.toNat → ¬ IsOutputAddress ea → exec i s = .fault (.accessFault ea .write))

/-- stb at any address in RAM: the byte there becomes bits 7..0 of x[ra]; no other byte (the other one of the word
included), no register and nothing else changes. The words of stb have the base 0x4c00. -/
def Obligations.StbStoresRamByte : Prop :=
  HasWords .stbR .stbI 0x4c00 ∧
  ∀ (i : Instr) (ra : RegIdx) (s : State) (ea len : Word), s.mem.wf = true →
    TransferForm .stbR .stbI i ra s ea len → ByteInRam s.mem ea →
    ∃ t, exec i s = .next t ∧ t.mem.byteAt ea.toNat = BitVec.ofNat 8 ((s.x ra).toNat % 256) ∧
      SameRamBut ea.toNat 1 s t ∧ SameRegs s t ∧ t.pc = s.pc + len ∧ SameHost s t

/-- stb outside RAM: a fault at an address that is no output service (D7, D16); at an output service a fault or, when
IO_BYTE_ACCESS is "as stw", the stw service with the byte zero-extended (R223, open by D16; entry 6): the statement holds
for each value of the parameter. -/
def Obligations.StbOutsideRamFollowsIoByteAccess : Prop :=
  ∀ (i : Instr) (ra : RegIdx) (s : State) (ea len : Word), TransferForm .stbR .stbI i ra s ea len →
    (¬ ByteInRam s.mem ea → ¬ IsOutputAddress ea → exec i s = .fault (.accessFault ea .write)) ∧
    (IsOutputAddress ea →
      match Config.ioByteAccess with
      | .fault => exec i s = .fault (.accessFault ea .write)
      | .asStw => ∀ svc, PerformsService i s svc ea (BitVec.ofNat 16 ((s.x ra).toNat % 256)) (s.pc + len))

/-! ## Encoding -/

/-- Decode and encode agree: the bytes of any instruction, whatever follows them, decode to that instruction, with every
operand at every value. That hlt has its two register fields, and decodes with any of them, rests on R82, decision D5 of
the spec, and on the model's form of hlt (entry 12). -/
def Obligations.DecodeOfEncodeIsIdentity : Prop :=
  ∀ (i : Instr) (rest : List Byte), i.wellFormed = true → decode (encodeBytes i ++ rest) = .ok i

/-- Encode and decode agree: a word that decodes is encoded again as that word, followed by the immediate word exactly
when its bit 8 is set. No two words stand for one instruction; of hlt this holds because `Instr.hlt` keeps the two
register fields that it ignores (the model's choice, entry 12): by R82 and decision D5 all of 0xf800 to 0xf8ff are hlt. -/
def Obligations.EncodeOfDecodeIsIdentity : Prop :=
  ∀ (w imm : Word) (i : Instr), decodeWords w imm = .ok i →
    encode i = if w.toNat / 256 % 2 = 1 then [w, imm] else [w]

/-- The reserved words, listed as R80 lists them by Opcode and Opcode 2, with hlt with I[8] = 1 (R82, decision D5): the
decoder refuses these, by name, and no others. -/
def Obligations.ReservedWordsAreExactlyTheListed : Prop :=
  ∀ (w imm : Word),
    let op := w.toNat / 8192
    let op2 := w.toNat / 512 % 16
    (isReserved w = true ↔
      (op = 3 ∨ op = 6) ∨
      (op = 0 ∧ (op2 = 1 ∨ 6 ≤ op2)) ∨
      (op = 1 ∧ op2 ≠ 8 ∧ op2 ≠ 10 ∧ op2 ≠ 11) ∨
      (op = 2 ∧ (op2 = 1 ∨ op2 = 5 ∨ 7 ≤ op2)) ∨
      ((op = 4 ∨ op = 5) ∧ (op2 = 2 ∨ op2 = 3 ∨ op2 = 6 ∨ op2 = 7 ∨ 10 ≤ op2)) ∨
      (op = 7 ∧ (op2 ≠ 12 ∨ w.toNat / 256 % 2 = 1))) ∧
    (decodeWords w imm = .error (.reserved w) ↔ isReserved w = true)

/-- Words printed or listed in the spec decode to the instructions they stand for, at least one of each family. -/
def Obligations.SpecWordsDecode : Prop :=
  decodeWords 0x4150 0x000c = .ok (.ldwI 5 0 12) ∧
  decodeWords 0x0856 0x0000 = .ok (.addR 5 6) ∧
  decodeWords 0xf800 0x0000 = .ok (.hlt 0 0) ∧
  decodeWords 0x4950 0xf000 = .ok (.stwI 5 0 0xf000) ∧
  decodeWords 0x3112 0x0003 = .ok (.lslI 1 2 3) ∧
  decodeWords 0xb012 0x0000 = .ok (.teqR 1 2) ∧
  decodeWords 0x8312 0x3039 = .ok (.bgeI 1 2 12345)

/-! ## The step -/

/-- A step runs the decoded instruction: in a machine that is not halted, with pc even and the instruction's words in RAM,
if the words at pc decode to i then the step is exactly exec of i; nothing is added around it. -/
def Obligations.StepRunsDecodedInstruction : Prop :=
  ∀ (s : State) (i : Instr), s.halted = false → s.pc.toNat % 2 = 0 →
    s.pc.toNat + 2 * (encode i).length ≤ s.mem.size → i.wellFormed = true →
    decodeWords (ramWord s.mem s.pc.toNat) (ramWord s.mem (s.pc.toNat + 2)) = .ok i →
    step s = exec i s

/-- What a step does first, in the order of R214 (decision D24): the stop of a halted machine (entry 10), the fetch
faults, the reserved check, which comes before the immediate word is fetched, the fetch fault of the immediate word; in
every other state an instruction is decoded and run. -/
def Obligations.StepChecksInOrder : Prop :=
  ∀ (s : State),
    if s.halted = true then step s = .fault .halted
    else if s.pc.toNat % 2 = 1 then step s = .fault (.misalignedFetch s.pc)
    else if s.mem.size ≤ s.pc.toNat then step s = .fault (.accessFault s.pc .fetch)
    else if isReserved (ramWord s.mem s.pc.toNat) = true then
      step s = .fault (.reservedInstruction s.pc (ramWord s.mem s.pc.toNat))
    else if hasImmediate (ramWord s.mem s.pc.toNat) = true ∧ s.mem.size ≤ (s.pc + 2).toNat then
      step s = .fault (.accessFault (s.pc + 2) .fetch)
    else
      ∃ i, decodeWords (ramWord s.mem s.pc.toNat) (ramWord s.mem (s.pc.toNat + 2)) = .ok i ∧ step s = exec i s

/-- No instruction is refused, and only loads and stores fault once they are fetched: by a misaligned access or an access
outside the map. -/
def Obligations.OnlyDataTransfersFault : Prop :=
  ∀ (i : Instr) (s : State),
    (∀ r, exec i s ≠ .refused r) ∧
    (∀ f, exec i s = .fault f →
      isDataTransfer i = true ∧
        ∃ a, f = .misalignedAccess a ∨ f = .accessFault a .read ∨ f = .accessFault a .write)

/-- Every instruction that completes, hlt included, counts one cycle (decision D25; entry 11). -/
def Obligations.EveryInstructionCountsOneCycle : Prop :=
  ∀ (i : Instr) (s t : State), exec i s = .next t → t.cycles = s.cycles + 1

/-- Every instruction but the branches and hlt advances pc by its own length, modulo 2^16, also where it calls a service
(R26; the wrap is decision D9). -/
def Obligations.PcAdvancesByLength : Prop :=
  ∀ (i : Instr) (s t : State), exec i s = .next t → isBranch i = false → isHalt i = false →
    t.pc = s.pc + lengthWord i

/-- What changes the state the host sees: the trace grows by one event at a time and by stores only, input is consumed one
answer at a time and by ldw only, and only hlt halts. -/
def Obligations.HostStateChangesOnlyByItsInstructions : Prop :=
  ∀ (i : Instr) (s t : State), exec i s = .next t →
    (t.output = s.output ∨
      ((∃ ra rb k, i = .stwR ra rb ∨ i = .stwI ra rb k ∨ i = .stbR ra rb ∨ i = .stbI ra rb k) ∧
        ∃ e, t.output = s.output ++ [e])) ∧
    (t.inputsRead = s.inputsRead ∨
      ((∃ ra rb k, i = .ldwR ra rb ∨ i = .ldwI ra rb k) ∧ t.inputsRead = s.inputsRead + 1)) ∧
    (t.halted = s.halted ∨ (isHalt i = true ∧ t.halted = true))

/-! ## Invariants -/

/-- Every step keeps the invariant: memory stays in its canonical form, and the trace holds only events of the services'
forms (no string with a zero byte, no string from a value service, no value from a string service); and no step changes
the size of RAM, a parameter of the run (R6; entry 3). -/
def Obligations.StepKeepsInvariant : Prop :=
  ∀ (s t : State), GoodState s → step s = .next t → GoodState t ∧ t.mem.words = s.mem.words

/-- The invariant holds at reset. -/
def Obligations.ResetHasInvariant : Prop := GoodState State.reset

/-- The start state of the simulator (R33, R44, decisions D7, D10): sp is 0xf000, every other register and pc are 0, RAM
has 61440 bytes, the machine is not halted, the trace is empty and no cycle is counted. -/
def Obligations.ResetIsDebuggerDisplay : Prop :=
  (∀ k : RegIdx, State.reset.x k = if k = 14 then 0xf000 else 0) ∧ State.reset.pc = 0 ∧ State.reset.mem.size = 61440 ∧
    State.reset.halted = false ∧ State.reset.output = [] ∧ State.reset.cycles = 0

/-- The start sequence (R251, decisions D7, D10, D11, D22), for every MEM_SIZE, INIT_MEM and SP_RESET (R6): a program that
fits is loaded at address 0 word by word over the contents of RAM, and the rest of RAM and its size stay; sp is SP_RESET,
every other register and pc are 0, the machine is not halted, the trace is empty, the consumed input is as at reset and no
cycle is counted; the invariant holds. That every program that fits is loaded, whatever its words are, is the model's choice
(entry 21): R181 and R251 leave open what the tool checks before a run and the largest program it accepts. -/
def Obligations.LaunchLoadsProgramAtZero : Prop :=
  ∀ (p : Platform) (program : List Word), p.initMem.wf = true → 2 * program.length ≤ p.initMem.size →
    ∃ s, State.launch p program = some s ∧ GoodState s ∧
      (∀ (j : Nat) (h : j < program.length), ramWord s.mem (2 * j) = program[j]) ∧
      (∀ b, 2 * program.length ≤ b → s.mem.byteAt b = p.initMem.byteAt b) ∧ s.mem.words = p.initMem.words ∧
      (∀ k : RegIdx, s.x k = if k = 14 then p.spReset else 0) ∧ s.pc = 0 ∧ s.halted = false ∧ s.output = [] ∧
      s.inputsRead = State.reset.inputsRead ∧ s.cycles = 0

/-! ## Whole-machine properties -/

/-- No step depends on the trace or on the cycle count: two states that agree on all else stop with the same fault, or
step to states that agree on all else again and have appended the same events. -/
def Obligations.StepIgnoresTraceAndCycles : Prop :=
  ∀ (s s' : State), SameProgramState s s' →
    (∀ f, step s = .fault f → step s' = .fault f) ∧
    (∀ t, step s = .next t →
      ∃ t' events, step s' = .next t' ∧ SameProgramState t t' ∧ t.output = s.output ++ events ∧
        t'.output = s'.output ++ events)

/-- A word stored by stw is the word fetched there next, and every other aligned word is fetched as before, for either
byte order (R42, R58; decisions D1, D15). -/
def Obligations.StoredWordIsFetched : Prop :=
  ∀ (i : Instr) (ra : RegIdx) (s t : State) (ea len : Word), s.mem.wf = true →
    TransferForm .stwR .stwI i ra s ea len → WordInRam s.mem ea → exec i s = .next t →
    fetchWord t ea = .ok (s.x ra) ∧ ∀ a, a ≠ ea → fetchWord t a = fetchWord s a

/-- What a mixed-width access sees (R43, derived in the spec): after a word store the two bytes are its halves, and after
two byte stores the word is made of the two bytes, each in the order that BYTE_ORDER says. -/
def Obligations.MixedWidthFollowsByteOrder : Prop :=
  ∀ (m : Memory) (a : Nat) (v : Word) (b0 b1 : Byte), m.wf = true → a % 2 = 0 → a < m.size →
    ((m.setWordAt a v).byteAt a, (m.setWordAt a v).byteAt (a + 1)) =
      (match Config.byteOrder with
      | .big => (BitVec.ofNat 8 (v.toNat / 256), BitVec.ofNat 8 (v.toNat % 256))
      | .little => (BitVec.ofNat 8 (v.toNat % 256), BitVec.ofNat 8 (v.toNat / 256))) ∧
    ((m.setByteAt a b0).setByteAt (a + 1) b1).wordAt a =
      (match Config.byteOrder with
      | .big => BitVec.ofNat 16 (b0.toNat * 256 + b1.toNat)
      | .little => BitVec.ofNat 16 (b1.toNat * 256 + b0.toNat))

/-! ## The assembler -/

/-- The image of a source has the size that R177 gives its lines (derived in the spec); that padding counts per
line is the model's (entry 25), as is that a source of any size assembles (entry 30). -/
def Obligations.AssembledSizeIsSumOfLines : Prop :=
  ∀ (lines : List SourceLine) (image : List ImageWord), assemble lines = .ok image →
    2 * image.length = (lines.map SourceLine.size).sum

/-- Two consecutive bytes of the image, loaded as a word, are the two bytes at consecutive addresses, for either byte
order; and in a source that assembles and is launched, byte i of any byte, string or space declaration at address a,
its padding byte included, is RAM[a + i] (R172 to R176; R176 is derived in the spec). That the reserved bytes of [n]
are zeros is decision D26 of the spec (R173, entry 27), on which no claim about the real tool may rest; the load at
address 0 is decision D22; that padding counts per line is the model's (entry 25). -/
def Obligations.ByteItemsLoadAtConsecutiveAddresses : Prop :=
  (∀ (m : Memory) (a : Nat) (b0 b1 : Byte), m.wf = true → a % 2 = 0 → a < m.size →
    let loaded := m.setWordAt a ((ImageWord.pair b0 b1).toWord Config.byteOrder)
    loaded.byteAt a = b0 ∧ loaded.byteAt (a + 1) = b1) ∧
  (∀ (before after : List SourceLine) (line : SourceLine) (code : List Word) (p : Platform) (s : State),
    p.initMem.wf = true → objectCode (before ++ line :: after) = .ok code → State.launch p code = some s →
    BytesAt s.mem (before.map SourceLine.size).sum (withPadding (declaredBytes line)))

/-- Every reference has an even value (R175). -/
def Obligations.LabelsAreEven : Prop :=
  ∀ (lines : List SourceLine) (name : String) (a : Nat), (name, a) ∈ symbolTable lines → a % 2 = 0

/-- The object file of a source, as mode `a` writes it and mode `s` reads it (R180): a source has one exactly if it
assembles, with the same error otherwise (R182, U24), and reading its text gives each word of the object code with its
address. The third column's form and what of it is read are the model's (entries 23, 26), as is that a source of any size is
taken, its addresses modulo 2^16 (entry 30). -/
def Obligations.ObjectFileReadsBackAsObjectCode : Prop :=
  ∀ (lines : List SourceLine),
    match objectCode lines with
    | .error e => objectFile lines = .error e
    | .ok code => ∃ text, objectFile lines = .ok text ∧ readObject text = .ok (addressed 0 code)

/-- Loading the lines of an object file one by one, each word at its own address (R179), is loading the program from address
0 on; where one is not loaded, neither is the other (R181; entry 21). -/
def Obligations.LoadingLinesIsLoadingTheProgram : Prop :=
  ∀ (p : Platform) (code : List Word), State.launchLines p (addressed 0 code) = State.launch p code
end

