-- ==== Sys2Proof/Laws/Decode.lean ====
section
/-! SUPPORT. Reading the fields of an instruction word back from the word made of them, and the two directions of the
opcode map. -/

namespace Sys2Proof

/-! ## Fields of a word -/

theorem getLsbD_headWord (f : Fields) (i : Nat) :
    f.headWord.getLsbD i =
      if i < 4 then (BitVec.ofFin f.rb : BitVec 4).getLsbD i
      else if i < 8 then (BitVec.ofFin f.ra : BitVec 4).getLsbD (i - 4)
      else if i < 9 then f.imm.isSome && decide (i = 8)
      else if i < 13 then f.opcode2.getLsbD (i - 9)
      else f.opcode.getLsbD (i - 13) := by
  simp only [Fields.headWord, BitVec.getLsbD_append, BitVec.getLsbD_ofBool]
  by_cases h4 : i < 4
  · simp [h4]
  by_cases h8 : i < 8
  · have h1 : i - 4 < 4 := by omega
    simp [h4, h8, h1]
  by_cases h9 : i < 9
  · have h1 : i = 8 := by omega
    subst h1
    simp
  have h1 : ¬ i - 4 < 4 := by omega
  have h2 : ¬ i - 4 - 4 < 1 := by omega
  by_cases h13 : i < 13
  · have h3 : i - 4 - 4 - 1 < 4 := by omega
    have h5 : i - 4 - 4 - 1 = i - 9 := by omega
    have h6 : i - 9 < 4 := by omega
    simp [h4, h8, h9, h13, h1, h2, h5, h6]
  · have h3 : ¬ i - 4 - 4 - 1 < 4 := by omega
    have h5 : i - 4 - 4 - 1 - 4 = i - 13 := by omega
    have h6 : ¬ i - 9 < 4 := by omega
    simp only [h4, h8, h9, h13, h1, h2, h3, h5, if_false]

theorem opcodeOf_headWord (f : Fields) : opcodeOf f.headWord = f.opcode := by
  ext i hi
  simp only [opcodeOf, BitVec.getElem_extractLsb', getLsbD_headWord]
  rw [if_neg (by omega), if_neg (by omega), if_neg (by omega), if_neg (by omega), ← BitVec.getLsbD_eq_getElem hi]
  congr 1; omega

theorem opcode2Of_headWord (f : Fields) : opcode2Of f.headWord = f.opcode2 := by
  ext i hi
  simp only [opcode2Of, BitVec.getElem_extractLsb', getLsbD_headWord]
  rw [if_neg (by omega), if_neg (by omega), if_neg (by omega), if_pos (by omega), ← BitVec.getLsbD_eq_getElem hi]
  congr 1; omega

theorem hasImmediate_headWord (f : Fields) : hasImmediate f.headWord = f.imm.isSome := by
  rw [hasImmediate, getLsbD_headWord]; simp

theorem regAOf_headWord (f : Fields) : regAOf f.headWord = f.ra := by
  have : f.headWord.extractLsb' 4 4 = BitVec.ofFin f.ra := by
    ext i hi
    simp only [BitVec.getElem_extractLsb', getLsbD_headWord]
    rw [if_neg (by omega), if_pos (by omega), ← BitVec.getLsbD_eq_getElem hi]
    congr 1; omega
  simp only [regAOf, this]

theorem regBOf_headWord (f : Fields) : regBOf f.headWord = f.rb := by
  have : f.headWord.extractLsb' 0 4 = BitVec.ofFin f.rb := by
    ext i hi
    simp only [BitVec.getElem_extractLsb', getLsbD_headWord]
    rw [if_pos (by omega), ← BitVec.getLsbD_eq_getElem hi]
    congr 1; omega
  simp only [regBOf, this]

/-- The fields read from a word made of fields, with the immediate word, are those fields. -/
theorem ofWords_headWord (f : Fields) : Fields.ofWords f.headWord (f.imm.getD 0) = f := by
  obtain ⟨op, op2, ra, rb, imm⟩ := f
  simp only [Fields.ofWords, opcodeOf_headWord, opcode2Of_headWord, hasImmediate_headWord, regAOf_headWord,
    regBOf_headWord]
  cases imm <;> simp

/-- The word made of the fields read from a word is that word. -/
theorem headWord_ofWords (w k : Word) : (Fields.ofWords w k).headWord = w := by
  apply BitVec.eq_of_getLsbD_eq
  intro i hi
  rw [getLsbD_headWord]
  simp only [Fields.ofWords, opcodeOf, opcode2Of, hasImmediate, regAOf, regBOf]
  split
  · rename_i h
    change (BitVec.extractLsb' 0 4 w).getLsbD i = _
    simp [h]
  split
  · change (BitVec.extractLsb' 4 4 w).getLsbD (i-4) = _
    rw [BitVec.getLsbD_extractLsb']
    simp [show i - 4 < 4 by omega, show 4 + (i-4) = i by omega]
  split
  · have : i = 8 := by omega
    rw [this]
    have hb : ∀ b : Bool, ((if b = true then some k else none).isSome && decide (8 = 8)) = b := by
      intro b; cases b <;> rfl
    exact hb (w.getLsbD 8)
  split
  · rw [BitVec.getLsbD_extractLsb']
    simp [show i - 9 < 4 by omega, show 9 + (i-9) = i by omega]
  · rw [BitVec.getLsbD_extractLsb']
    simp [show i - 13 < 3 by omega, show 13 + (i-13) = i by omega]

/-! ## The opcode map -/

/-- The instruction of an instruction's fields is the instruction. -/
theorem instr_fields (i : Instr) : i.fields.instr = some i := by
  cases i <;> rfl

/-- Every instruction's fields pass the checks. -/
theorem fields_wellFormed (i : Instr) : i.fields.wellFormed = true := by
  cases i <;> rfl

/-- The opcode map from fields to instruction, over opcodes as numbers. -/
theorem fields_of_instr_ofFin (ra rb : RegIdx) (imm : Option Word) (i : Instr) (op : Fin 8) (op2 : Fin 16)
    (h : (Fields.mk (.ofFin op) (.ofFin op2) ra rb imm).instr = some i) :
    i.fields = ⟨.ofFin op, .ofFin op2, ra, rb, imm⟩ := by
  fin_cases op <;> fin_cases op2 <;> cases imm <;> cases h <;> rfl

/-- The fields of the instruction of some fields are those fields. -/
theorem fields_of_instr {f : Fields} {i : Instr} (h : f.instr = some i) : i.fields = f :=
  fields_of_instr_ofFin f.ra f.rb f.imm i f.opcode.toFin f.opcode2.toFin h

theorem instr_isSome_ofFin (ra rb : RegIdx) (imm : Option Word) (op : Fin 8) (op2 : Fin 16) :
    (Fields.mk (.ofFin op) (.ofFin op2) ra rb imm).instr.isSome =
      (Fields.mk (.ofFin op) (.ofFin op2) ra rb imm).wellFormed := by
  cases imm <;> revert op op2 <;> exact of_decide_eq_true rfl

/-- Fields stand for an instruction exactly when they pass both checks. -/
theorem instr_isSome (f : Fields) : f.instr.isSome = f.wellFormed :=
  instr_isSome_ofFin f.ra f.rb f.imm f.opcode.toFin f.opcode2.toFin

/-! ## Bytes of a word -/

@[simp] theorem highByte_append (hi lo : Byte) : highByte (hi ++ lo) = hi := by
  ext i h
  simp only [highByte, BitVec.getElem_extractLsb', BitVec.getLsbD_append]
  rw [if_neg (by omega), ← BitVec.getLsbD_eq_getElem h]
  congr 1; omega

@[simp] theorem lowByte_append (hi lo : Byte) : lowByte (hi ++ lo) = lo := by
  ext i h
  simp only [lowByte, BitVec.getElem_extractLsb', BitVec.getLsbD_append]
  rw [if_pos (by omega), ← BitVec.getLsbD_eq_getElem h]
  congr 1; omega

theorem bytes_append (w : Word) : highByte w ++ lowByte w = w := by
  ext i hi
  simp only [highByte, lowByte, BitVec.getElem_append, BitVec.getElem_extractLsb']
  split <;> simp_all [BitVec.getLsbD_eq_getElem]

end Sys2Proof
end

