-- ==== Sys2Proof/Laws/Memory.lean ====
section
/-! SUPPORT. The laws of memory: reading after writing, for cells, bytes and words, and the canonical form kept by every
memory operation. -/

namespace Sys2Proof.Machine

/-! ## Lists of cells -/

theorem lookupCell_below {size low : Nat} {cells : List Host.Cell} (h : cellsWf size low cells = true) {k : Nat} (hk : k < low) :
    lookupCell cells k = unlistedByte := by
  induction cells generalizing low with
  | nil => rfl
  | cons c rest ih =>
    obtain ⟨k', b⟩ := c
    simp only [cellsWf, Bool.and_eq_true, decide_eq_true_eq] at h
    have : k' ≠ k := by omega
    simp only [lookupCell, this, if_false]
    exact ih h.2 (by omega)

theorem cellsWf_mono {size low low' : Nat} {cells : List Host.Cell} (h : cellsWf size low cells = true) (hl : low' ≤ low) :
    cellsWf size low' cells = true := by
  cases cells with
  | nil => rfl
  | cons c rest =>
    obtain ⟨k', b⟩ := c
    simp only [cellsWf, Bool.and_eq_true, decide_eq_true_eq] at h ⊢
    exact ⟨⟨⟨by omega, h.1.1.2⟩, h.1.2⟩, h.2⟩

theorem updateCell_wf {size low : Nat} {cells : List Host.Cell} (h : cellsWf size low cells = true) {k : Nat} (v : Byte)
    (hlow : low ≤ k) (hk : k < size) : cellsWf size low (updateCell cells k v) = true := by
  induction cells generalizing low with
  | nil =>
    unfold updateCell
    split
    · rfl
    · rename_i hv
      simp [cellsWf, hlow, hk, hv]
  | cons c rest ih =>
    obtain ⟨k', b⟩ := c
    have h0 := h
    simp only [cellsWf, Bool.and_eq_true, decide_eq_true_eq] at h
    unfold updateCell
    split
    · rename_i hlt
      simp only [cellsWf, Bool.and_eq_true, decide_eq_true_eq]
      exact ⟨h.1, ih h.2 (by omega)⟩
    · split
      · rename_i hlt heq
        subst heq
        split
        · exact cellsWf_mono h.2 (by omega)
        · rename_i hv
          simp only [cellsWf, Bool.and_eq_true, decide_eq_true_eq, bne_iff_ne]
          exact ⟨⟨⟨hlow, hk⟩, hv⟩, h.2⟩
      · rename_i hlt hne
        split
        · exact h0
        · rename_i hv
          simp only [cellsWf, Bool.and_eq_true, decide_eq_true_eq, bne_iff_ne]
          exact ⟨⟨⟨hlow, hk⟩, hv⟩, ⟨⟨by omega, h.1.1.2⟩, by simpa using h.1.2⟩, h.2⟩

theorem lookup_updateCell {size low : Nat} {cells : List Host.Cell} (h : cellsWf size low cells = true) (k j : Nat) (v : Byte) :
    lookupCell (updateCell cells k v) j = if j = k then v else lookupCell cells j := by
  induction cells generalizing low with
  | nil =>
    by_cases hj : j = k
    · subst hj; unfold updateCell; split <;> simp_all [lookupCell]
    · have : k ≠ j := fun e => hj e.symm
      unfold updateCell; split <;> simp_all [lookupCell]
  | cons c rest ih =>
    obtain ⟨k', b⟩ := c
    simp only [cellsWf, Bool.and_eq_true, decide_eq_true_eq] at h
    unfold updateCell
    split
    · rename_i hlt
      simp only [lookupCell, ih h.2]
      by_cases hj : j = k
      · have : k' ≠ j := by omega
        simp [hj]; omega
      · simp [hj]
    · split
      · rename_i hlt heq
        subst heq
        by_cases hj : j = k'
        · subst hj
          split
          · rename_i hv
            simp only [if_true]
            rw [lookupCell_below h.2 (by omega), hv]
          · simp [lookupCell]
        · have : k' ≠ j := fun e => hj e.symm
          split <;> simp [lookupCell, this]
      · rename_i hlt hne
        by_cases hj : j = k
        · subst hj
          split
          · rename_i hv
            simp only [if_true, lookupCell, hne, if_false]
            rw [lookupCell_below h.2 (by omega), hv]
          · simp [lookupCell]
        · have : k ≠ j := fun e => hj e.symm
          split <;> simp [lookupCell, this]

/-! ## Cells -/

variable {m : Memory}

/-- RAM ends at 0xf000 or below (00_scope R6). -/
theorem Memory.size_le (m : Memory) : m.size ≤ 61440 := by
  have := m.words.isLt
  simp only [Memory.size]; omega

/-- MEM_SIZE is even (00_scope R6). -/
theorem Memory.size_even (m : Memory) : m.size % 2 = 0 := by simp [Memory.size]

theorem Memory.size_eq_of_words {m m' : Memory} (h : m.words = m'.words) : m.size = m'.size := by
  simp only [Memory.size, h]

@[simp] theorem blank_words (n : RamWords) : (Memory.blank n).words = n := rfl

@[simp] theorem setCell_words (k : Nat) (v : Byte) : (m.setCell k v).words = m.words := rfl

@[simp] theorem setCell_size (k : Nat) (v : Byte) : (m.setCell k v).size = m.size := rfl

theorem setCell_wf (h : m.wf = true) {k : Nat} (v : Byte) (hk : k < m.size) : (m.setCell k v).wf = true :=
  updateCell_wf h v (Nat.zero_le k) hk

theorem cell_setCell (h : m.wf = true) (k j : Nat) (v : Byte) :
    (m.setCell k v).cell j = if j = k then v else m.cell j :=
  lookup_updateCell h k j v

/-! ## Byte addresses and cells -/

theorem cellOf_cellOf (order : ByteOrder) (a : Nat) : cellOf order (cellOf order a) = a := by
  cases order with
  | big => rfl
  | little => simp only [cellOf]; split <;> split <;> omega

theorem cellOf_inj {order : ByteOrder} {a b : Nat} : cellOf order a = cellOf order b ↔ a = b := by
  constructor
  · intro h
    have := congrArg (cellOf order) h
    rwa [cellOf_cellOf, cellOf_cellOf] at this
  · rintro rfl; rfl

theorem cellOf_lt {order : ByteOrder} {a : Nat} (h : a < m.size) : cellOf order a < m.size := by
  cases order with
  | big => exact h
  | little => simp only [cellOf, Memory.size] at *; split <;> omega

/-! ## Bytes -/

@[simp] theorem setByteAt_words (a : Nat) (v : Byte) : (m.setByteAt a v).words = m.words := rfl

@[simp] theorem setByteAt_size (a : Nat) (v : Byte) : (m.setByteAt a v).size = m.size := rfl

@[simp] theorem setByteAt_inRam (a : Nat) (v : Byte) (w : Word) : (m.setByteAt a v).inRam w = m.inRam w := rfl

@[simp] theorem setBytesAt_words (a : Nat) (bytes : List Byte) : (m.setBytesAt a bytes).words = m.words := by
  induction bytes generalizing m a with
  | nil => rfl
  | cons b rest ih => simp [Memory.setBytesAt, ih]

@[simp] theorem setBytesAt_size (a : Nat) (bytes : List Byte) : (m.setBytesAt a bytes).size = m.size :=
  Memory.size_eq_of_words (setBytesAt_words a bytes)

theorem setByteAt_wf (h : m.wf = true) {a : Nat} (v : Byte) (ha : a < m.size) : (m.setByteAt a v).wf = true :=
  setCell_wf h v (cellOf_lt ha)

theorem byteAt_setByteAt (h : m.wf = true) (a b : Nat) (v : Byte) :
    (m.setByteAt a v).byteAt b = if b = a then v else m.byteAt b := by
  simp only [Memory.byteAt, Memory.setByteAt, cell_setCell h, cellOf_inj]

theorem setBytesAt_wf (h : m.wf = true) {a : Nat} {bytes : List Byte} (ha : a + bytes.length ≤ m.size) :
    (m.setBytesAt a bytes).wf = true := by
  induction bytes generalizing m a with
  | nil => exact h
  | cons b rest ih =>
    simp only [List.length_cons] at ha
    exact ih (setByteAt_wf h b (by omega)) (by rw [setByteAt_size]; omega)

/-- Bytes stored from a on: the byte at each of their addresses is the one stored, every other byte is as before. -/
theorem byteAt_setBytesAt (h : m.wf = true) {a : Nat} {bytes : List Byte} (ha : a + bytes.length ≤ m.size)
    (b : Nat) : (m.setBytesAt a bytes).byteAt b = if a ≤ b then bytes.getD (b - a) (m.byteAt b) else m.byteAt b := by
  induction bytes generalizing m a with
  | nil => simp [Memory.setBytesAt]
  | cons c rest ih =>
    simp only [List.length_cons] at ha
    rw [Memory.setBytesAt, ih (setByteAt_wf h c (by omega)) (by rw [setByteAt_size]; omega), byteAt_setByteAt h]
    by_cases hb : b = a
    · subst hb; simp
    · by_cases hab : a ≤ b
      · have h1 : a + 1 ≤ b := by omega
        have h2 : b - a = (b - (a + 1)) + 1 := by omega
        simp [hb, hab, h1, h2]
      · have h1 : ¬ a + 1 ≤ b := by omega
        simp [hb, hab, h1]

/-! ## Words -/

@[simp] theorem setWordAt_words (a : Nat) (v : Word) : (m.setWordAt a v).words = m.words := rfl

@[simp] theorem setWordAt_size (a : Nat) (v : Word) : (m.setWordAt a v).size = m.size := rfl

@[simp] theorem setWordAt_inRam (a : Nat) (v w : Word) : (m.setWordAt a v).inRam w = m.inRam w := rfl

@[simp] theorem setWordsAt_words (a : Nat) (words : List Word) : (m.setWordsAt a words).words = m.words := by
  induction words generalizing m a with
  | nil => rfl
  | cons w rest ih => simp only [Memory.setWordsAt, ih]; split <;> simp

@[simp] theorem setWordsAt_size (a : Nat) (words : List Word) : (m.setWordsAt a words).size = m.size :=
  Memory.size_eq_of_words (setWordsAt_words a words)

theorem setWordAt_wf (h : m.wf = true) {a : Nat} (v : Word) (ha : a + 1 < m.size) :
    (m.setWordAt a v).wf = true :=
  setCell_wf (setCell_wf h _ (by omega)) _ ha

theorem cell_setWordAt (h : m.wf = true) {a : Nat} (v : Word) (ha : a < m.size) (k : Nat) :
    (m.setWordAt a v).cell k = if k = a + 1 then lowByte v else if k = a then highByte v else m.cell k := by
  rw [Memory.setWordAt, cell_setCell (setCell_wf h _ ha), cell_setCell h]

/-- A word read after a word was stored, both at even addresses (20_memory R42). -/
theorem wordAt_setWordAt (h : m.wf = true) {a b : Nat} (v : Word) (ha : a < m.size) (hae : a % 2 = 0)
    (hbe : b % 2 = 0) : (m.setWordAt a v).wordAt b = if b = a then v else m.wordAt b := by
  simp only [Memory.wordAt, cell_setWordAt h v ha]
  by_cases hb : b = a
  · subst hb
    simp [bytes_append]
  · have h1 : b ≠ a + 1 := by omega
    have h2 : b + 1 ≠ a := by omega
    have h3 : b + 1 ≠ a + 1 := by omega
    simp [hb, h1, h2]

/-- A word store leaves every byte outside the word alone, for either byte order. -/
theorem byteAt_setWordAt_of_outside (h : m.wf = true) {a b : Nat} (v : Word) (ha : a < m.size)
    (hae : a % 2 = 0) (hb : b < a ∨ a + 2 ≤ b) : (m.setWordAt a v).byteAt b = m.byteAt b := by
  have key : cellOf Config.byteOrder b ≠ a ∧ cellOf Config.byteOrder b ≠ a + 1 := by
    generalize Config.byteOrder = o
    cases o
    · simp only [cellOf]; omega
    · simp only [cellOf]; split <;> omega
  simp [Memory.byteAt, cell_setWordAt h v ha, key.1, key.2]

theorem setWordsAt_wf (h : m.wf = true) (a : Nat) (words : List Word) : (m.setWordsAt a words).wf = true := by
  induction words generalizing m a with
  | nil => exact h
  | cons w rest ih =>
    simp only [Memory.setWordsAt]
    split
    · exact ih (setWordAt_wf h w ‹_›) _
    · exact ih h _

/-- Words stored one list after another. -/
theorem setWordsAt_append (m : Memory) (a : Nat) (p q : List Word) :
    m.setWordsAt a (p ++ q) = (m.setWordsAt a p).setWordsAt (a + 2 * p.length) q := by
  induction p generalizing m a with
  | nil => rfl
  | cons w p ih =>
    simp only [List.cons_append, Memory.setWordsAt, ih, List.length_cons]
    congr 1; omega

/-! ## Strings -/

theorem stringFrom_ok {count a : Nat} {bytes : List Byte} (h : m.stringFrom count a = .ok bytes) :
    bytes.length < count ∧ (∀ b ∈ bytes, b ≠ 0) ∧ m.byteAt (a + bytes.length) = 0 ∧
      ∀ (i : Nat) (hi : i < bytes.length), m.byteAt (a + i) = bytes[i] := by
  induction count generalizing a bytes with
  | zero => simp [Memory.stringFrom] at h
  | succ n ih =>
    unfold Memory.stringFrom at h
    split at h
    · rename_i h0
      cases h
      simp [h0]
    · rename_i h0
      cases hr : m.stringFrom n (a + 1) with
      | error e => simp [hr, Except.map] at h
      | ok bs =>
        simp only [hr, Except.map, Except.ok.injEq] at h
        subst h
        obtain ⟨hlen, hnz, hz, hat⟩ := ih hr
        refine ⟨by simp; omega, ?_, ?_, ?_⟩
        · intro b hb
          rcases List.mem_cons.1 hb with rfl | hb
          · exact h0
          · exact hnz b hb
        · rw [← hz]; congr 1; simp; omega
        · intro i hi
          cases i with
          | zero => simp
          | succ j =>
            simp only [List.getElem_cons_succ]
            rw [← hat j (by simpa using hi)]
            congr 1; omega

theorem stringAt_ok {a : Word} {bytes : List Byte} (h : m.stringAt a = .ok bytes) :
    a.toNat + bytes.length < m.size ∧ (∀ b ∈ bytes, b ≠ 0) ∧ m.byteAt (a.toNat + bytes.length) = 0 ∧
      ∀ (i : Nat) (hi : i < bytes.length), m.byteAt (a.toNat + i) = bytes[i] := by
  unfold Memory.stringAt at h
  cases hs : m.stringFrom (m.size - a.toNat) a.toNat with
  | error e => simp [hs] at h
  | ok bs =>
    simp only [hs, Except.ok.injEq] at h
    subst h
    obtain ⟨h1, h2, h3, h4⟩ := stringFrom_ok hs
    exact ⟨by omega, h2, h3, h4⟩

/-- A string in memory is read as it stands: the bytes, none zero, and a zero byte after them. -/
theorem stringFrom_of_bytes {bytes : List Byte} : ∀ {count a : Nat}, bytes.length < count → (∀ b ∈ bytes, b ≠ 0) →
    (∀ (i : Nat) (hi : i < bytes.length), m.byteAt (a + i) = bytes[i]) → m.byteAt (a + bytes.length) = 0 →
    m.stringFrom count a = .ok bytes := by
  induction bytes with
  | nil =>
    intro count a h1 _ _ h4
    cases count with
    | zero => simp at h1
    | succ n => simp [Memory.stringFrom, (show m.byteAt a = 0 from h4)]
  | cons b rest ih =>
    intro count a h1 h2 h3 h4
    cases count with
    | zero => simp at h1
    | succ n =>
      have h0 : m.byteAt a = b := h3 0 (by simp)
      rw [Memory.stringFrom, h0, if_neg (h2 b (by simp)),
        ih (by simpa using h1) (fun c hc => h2 c (by simp [hc])) (fun j hj => ?_) ?_]
      · rfl
      · rw [← h4]; congr 1; simp; omega
      · have := h3 (j + 1) (by simpa using hj)
        simp only [List.getElem_cons_succ] at this
        rw [← this]; congr 1; omega

/-- With no zero byte among the next bytes, the read reaches the address after them. -/
theorem stringFrom_of_no_zero : ∀ {count a : Nat}, (∀ b, a ≤ b → b < a + count → m.byteAt b ≠ 0) →
    m.stringFrom count a = .error (a + count) := by
  intro count
  induction count with
  | zero => intro a _; rfl
  | succ n ih =>
    intro a h
    rw [Memory.stringFrom, if_neg (h a (le_refl _) (by omega)), ih (fun b h1 h2 => h b (by omega) (by omega))]
    simp [Except.map]; omega

/-! ## The canonical form at reset and at launch -/

theorem reset_mem_wf : State.reset.mem.wf = true := rfl

theorem loadProgram_wf (h : m.wf = true) {program : List Word} {m' : Memory} (hl : loadProgram m program = some m') :
    m'.wf = true := by
  unfold loadProgram at hl
  split at hl
  · cases hl; exact setWordsAt_wf h 0 program
  · cases hl

end Sys2Proof.Machine
end

