-- ==== Sys2Proof/Laws/State.lean ====
section
/-! SUPPORT. The small lemmas of the state: what reading each field gives after each update. -/

namespace Sys2Proof.Machine

variable (s : State) (i k ra : RegIdx) (v p len : Word) (e : OutEvent)

/-! ## Writing a register -/

@[simp] theorem x_zero : s.x 0 = 0 := rfl

@[simp] theorem setX_zero : s.setX 0 v = s := rfl

theorem setX_of_ne (h : i ≠ 0) : s.setX i v = { s with regs := s.regs.set (i.val - 1) v (by have := i.isLt; omega) } := by
  simp [State.setX, h]

@[simp] theorem setX_pc : (s.setX i v).pc = s.pc := by unfold State.setX; split <;> rfl
@[simp] theorem setX_mem : (s.setX i v).mem = s.mem := by unfold State.setX; split <;> rfl
@[simp] theorem setX_halted : (s.setX i v).halted = s.halted := by unfold State.setX; split <;> rfl
@[simp] theorem setX_output : (s.setX i v).output = s.output := by unfold State.setX; split <;> rfl
@[simp] theorem setX_inputsRead : (s.setX i v).inputsRead = s.inputsRead := by unfold State.setX; split <;> rfl
@[simp] theorem setX_cycles : (s.setX i v).cycles = s.cycles := by unfold State.setX; split <;> rfl

/-- A register read after a write: the new value in the register written, unless it is r0 (10_state R22). -/
theorem x_setX : (s.setX i v).x k = if k = i ∧ k ≠ 0 then v else s.x k := by
  by_cases hi : i = 0
  · subst hi; simp
  · by_cases hk : k = 0
    · subst hk; simp
    · have hi' : i.val ≠ 0 := fun h => hi (Fin.ext h)
      have hk' : k.val ≠ 0 := fun h => hk (Fin.ext h)
      rw [setX_of_ne _ _ _ hi]
      simp only [State.x, hk, dite_false, Vector.getElem_set, ne_eq, not_false_eq_true, and_true]
      have : (i.val - 1 = k.val - 1) ↔ k = i := by rw [Fin.ext_iff]; omega
      simp only [this]

/-- Registers agree in two states that store the same registers. -/
theorem x_congr {s t : State} (h : t.regs = s.regs) (k : RegIdx) : t.x k = s.x k := by
  unfold State.x; simp [h]

/-! ## The end of an instruction -/

@[simp] theorem retire_regs : (s.retire p).regs = s.regs := rfl
@[simp] theorem retire_pc : (s.retire p).pc = p := rfl
@[simp] theorem retire_mem : (s.retire p).mem = s.mem := rfl
@[simp] theorem retire_halted : (s.retire p).halted = s.halted := rfl
@[simp] theorem retire_output : (s.retire p).output = s.output := rfl
@[simp] theorem retire_inputsRead : (s.retire p).inputsRead = s.inputsRead := rfl
@[simp] theorem retire_cycles : (s.retire p).cycles = s.cycles + 1 := rfl
@[simp] theorem retire_x : (s.retire p).x k = s.x k := rfl

@[simp] theorem writeResult_pc : (s.writeResult ra v len).pc = s.pc + len := rfl
@[simp] theorem writeResult_mem : (s.writeResult ra v len).mem = s.mem := by simp [State.writeResult]
@[simp] theorem writeResult_halted : (s.writeResult ra v len).halted = s.halted := by simp [State.writeResult]
@[simp] theorem writeResult_output : (s.writeResult ra v len).output = s.output := by simp [State.writeResult]
@[simp] theorem writeResult_inputsRead : (s.writeResult ra v len).inputsRead = s.inputsRead := by simp [State.writeResult]
@[simp] theorem writeResult_cycles : (s.writeResult ra v len).cycles = s.cycles + 1 := by simp [State.writeResult]
theorem writeResult_x : (s.writeResult ra v len).x k = if k = ra ∧ k ≠ 0 then v else s.x k := by
  simp [State.writeResult, x_setX]

/-! ## The trace, the oracle and memory -/

@[simp] theorem emit_regs : (s.emit e).regs = s.regs := rfl
@[simp] theorem emit_pc : (s.emit e).pc = s.pc := rfl
@[simp] theorem emit_mem : (s.emit e).mem = s.mem := rfl
@[simp] theorem emit_halted : (s.emit e).halted = s.halted := rfl
@[simp] theorem emit_output : (s.emit e).output = s.output ++ [e] := rfl
@[simp] theorem emit_inputsRead : (s.emit e).inputsRead = s.inputsRead := rfl
@[simp] theorem emit_cycles : (s.emit e).cycles = s.cycles := rfl
@[simp] theorem emit_x : (s.emit e).x k = s.x k := rfl

@[simp] theorem consumeInput_regs : s.consumeInput.regs = s.regs := rfl
@[simp] theorem consumeInput_pc : s.consumeInput.pc = s.pc := rfl
@[simp] theorem consumeInput_mem : s.consumeInput.mem = s.mem := rfl
@[simp] theorem consumeInput_halted : s.consumeInput.halted = s.halted := rfl
@[simp] theorem consumeInput_output : s.consumeInput.output = s.output := rfl
@[simp] theorem consumeInput_inputsRead : s.consumeInput.inputsRead = s.inputsRead + 1 := rfl
@[simp] theorem consumeInput_cycles : s.consumeInput.cycles = s.cycles := rfl
@[simp] theorem consumeInput_x : s.consumeInput.x k = s.x k := rfl

@[simp] theorem with_mem_x (m : Memory) : ({ s with mem := m } : State).x k = s.x k := rfl

end Sys2Proof.Machine
end

