-- ==== Sys2Proof/Laws/Ops.lean ====
section
/-! SUPPORT. What each shared operation can do, said once: if it answers a next state, then that state is one of these. -/

namespace Sys2Proof.Machine

variable {s t : State} {ra : RegIdx} {a v ea len : Word} {b : Byte}

/-! ## Addresses -/

theorem inRam_iff {m : Memory} : m.inRam a = true ↔ a.toNat < m.size := by simp [Memory.inRam]

theorem inRam_eq_false_iff {m : Memory} : m.inRam a = false ↔ m.size ≤ a.toNat := by simp [Memory.inRam]

/-- No address from 0xf000 on is in RAM, whatever MEM_SIZE is: RAM and the services are apart (20_memory R44). -/
theorem inRam_eq_false {m : Memory} (h : 61440 ≤ a.toNat) : m.inRam a = false :=
  inRam_eq_false_iff.2 (Nat.le_trans m.size_le h)

theorem isOdd_iff : isOdd a = true ↔ a.toNat % 2 = 1 := by
  simp [isOdd, BitVec.getLsbD, Nat.testBit_zero]

theorem isOdd_eq_false_iff : isOdd a = false ↔ a.toNat % 2 = 0 := by
  simp only [Bool.eq_false_iff, ne_eq, isOdd_iff]; omega

/-! ## Outcomes -/

@[simp] theorem complete_ok : complete (.ok s) = .next s := rfl
@[simp] theorem complete_error (f : Fault) : complete (.error f) = .fault f := rfl

theorem complete_next {r : Except Fault State} (h : complete r = .next t) : r = .ok t := by
  cases r with
  | ok s => cases h; rfl
  | error f => cases h

theorem complete_ne_refused {r : Except Fault State} (x : Refusal) : complete r ≠ .refused x := by
  cases r <;> simp [complete, raise]

theorem map_ok {α β : Type} {r : Except Fault α} {f : α → β} {y : β} (h : r.map f = .ok y) :
    ∃ x, r = .ok x ∧ y = f x := by
  cases r with
  | ok x => cases h; exact ⟨x, rfl, rfl⟩
  | error e => cases h

/-! ## Services -/

theorem outputEvent_ok {svc : OutputService} {e : OutEvent} (h : outputEvent s svc v = .ok e) :
    (takesString svc = false ∧ e = .value svc v) ∨
      (takesString svc = true ∧ ∃ bytes, s.mem.stringAt v = .ok bytes ∧ e = .string svc bytes) := by
  unfold outputEvent at h
  split at h
  · rename_i ht
    cases hs : s.mem.stringAt v with
    | ok bytes => rw [hs] at h; cases h; exact .inr ⟨ht, bytes, rfl, rfl⟩
    | error e => rw [hs] at h; cases h
  · rename_i ht
    cases h
    exact .inl ⟨by simpa using ht, rfl⟩

theorem performOutput_ok {svc : OutputService} (h : performOutput s svc v = .ok t) :
    ∃ e, outputEvent s svc v = .ok e ∧ t = s.emit e := map_ok h

theorem readStringInto_ok {buf : Word} (h : readStringInto s buf = .ok t) :
    buf.toNat + (typedString s.inputsRead).length ≤ s.mem.size ∧
      t = { s.consumeInput with mem := s.mem.setBytesAt buf.toNat (typedString s.inputsRead) } := by
  unfold readStringInto at h
  split at h
  · cases h; exact ⟨‹_›, rfl⟩
  · cases h

/-- An input service supplies the oracle's value and consumes one answer; only read string changes memory. -/
theorem performInput_ok {svc : InputService} (h : performInput s svc ra = .ok (v, t)) :
    v = Config.inputValue s.inputsRead ∧
      ((svc ≠ .readString ∧ t = s.consumeInput) ∨
        (svc = .readString ∧ (s.x ra).toNat + (typedString s.inputsRead).length ≤ s.mem.size ∧
          t = { s.consumeInput with mem := s.mem.setBytesAt (s.x ra).toNat (typedString s.inputsRead) })) := by
  cases svc
  case readString =>
    obtain ⟨u, hu, he⟩ := map_ok h
    cases he
    obtain ⟨h1, h2⟩ := readStringInto_ok hu
    exact ⟨rfl, .inr ⟨rfl, h1, h2⟩⟩
  all_goals
    cases h
    exact ⟨rfl, .inl ⟨by simp, rfl⟩⟩

/-- The address of an input service is even and outside RAM (60_exceptions R220). -/
theorem inputServiceAt_some {svc : InputService} (h : inputServiceAt a = some svc) :
    isOdd a = false ∧ 61440 ≤ a.toNat := by
  have he := List.find?_some h
  simp only [beq_iff_eq] at he
  subst he
  cases svc <;> decide

/-- The address of an output service is even and outside RAM (60_exceptions R220). -/
theorem outputServiceAt_some {svc : OutputService} (h : outputServiceAt a = some svc) :
    isOdd a = false ∧ 61440 ≤ a.toNat := by
  have he := List.find?_some h
  simp only [beq_iff_eq] at he
  subst he
  cases svc <;> decide

/-- A word load at the address of an input service performs it, whatever MEM_SIZE is. -/
theorem memReadWord_service {svc : InputService} (h : inputServiceAt a = some svc) :
    memReadWord s ra a = performInput s svc ra := by
  obtain ⟨ho, hr⟩ := inputServiceAt_some h
  simp [memReadWord, ho, inRam_eq_false hr, h]

/-- A word store at the address of an output service performs it, whatever MEM_SIZE is. -/
theorem memWriteWord_service {svc : OutputService} (h : outputServiceAt a = some svc) :
    memWriteWord s a v = performOutput s svc v := by
  obtain ⟨ho, hr⟩ := outputServiceAt_some h
  simp [memWriteWord, ho, inRam_eq_false hr, h]

/-! ## Access primitives -/

theorem memReadByte_ok (h : memReadByte s a = .ok b) : a.toNat < s.mem.size ∧ b = s.mem.byteAt a.toNat := by
  unfold memReadByte at h
  split at h
  · cases h; exact ⟨inRam_iff.1 ‹_›, rfl⟩
  · cases h

theorem memReadWord_ok (h : memReadWord s ra a = .ok (v, t)) :
    a.toNat % 2 = 0 ∧
      ((a.toNat < s.mem.size ∧ v = s.mem.wordAt a.toNat ∧ t = s) ∨
        (s.mem.size ≤ a.toNat ∧ ∃ svc, inputServiceAt a = some svc ∧ performInput s svc ra = .ok (v, t))) := by
  unfold memReadWord at h
  split at h
  · cases h
  · rename_i ho
    refine ⟨isOdd_eq_false_iff.1 (by simpa using ho), ?_⟩
    split at h
    · cases h; exact .inl ⟨inRam_iff.1 ‹_›, rfl, rfl⟩
    · rename_i hr
      refine .inr ⟨by rw [inRam_iff] at hr; omega, ?_⟩
      split at h
      · rename_i svc hs; exact ⟨svc, hs, h⟩
      · cases h

theorem memWriteWord_ok (h : memWriteWord s a v = .ok t) :
    a.toNat % 2 = 0 ∧
      ((a.toNat < s.mem.size ∧ t = { s with mem := s.mem.setWordAt a.toNat v }) ∨
        (s.mem.size ≤ a.toNat ∧ ∃ svc, outputServiceAt a = some svc ∧ performOutput s svc v = .ok t)) := by
  unfold memWriteWord at h
  split at h
  · cases h
  · rename_i ho
    refine ⟨isOdd_eq_false_iff.1 (by simpa using ho), ?_⟩
    split at h
    · cases h; exact .inl ⟨inRam_iff.1 ‹_›, rfl⟩
    · rename_i hr
      refine .inr ⟨by rw [inRam_iff] at hr; omega, ?_⟩
      split at h
      · rename_i svc hs; exact ⟨svc, hs, h⟩
      · cases h

theorem memWriteByte_ok (h : memWriteByte s a b = .ok t) :
    (a.toNat < s.mem.size ∧ t = { s with mem := s.mem.setByteAt a.toNat b }) ∨
      (s.mem.size ≤ a.toNat ∧ Config.ioByteAccess = .asStw ∧
        ∃ svc, outputServiceAt a = some svc ∧ performOutput s svc (zext16 b) = .ok t) := by
  unfold memWriteByte at h
  split at h
  · cases h; exact .inl ⟨inRam_iff.1 ‹_›, rfl⟩
  · rename_i hr
    unfold storeByteOutsideRam at h
    split at h
    · rename_i svc hs hio
      exact .inr ⟨by rw [inRam_iff] at hr; omega, hio, svc, hs, h⟩
    · cases h

/-! ## The shared ends of the families -/

theorem compute_next {op : Word → Word → Word} {src : Word × Word} (h : compute op src ra len s = .next t) :
    t = s.writeResult ra (op src.1 src.2) len := by cases h; rfl

theorem branch_next {c : Cond} {o : BranchOperands} (h : branch c o len s = .next t) :
    t = s.retire (if c.holds o.first o.second then o.target else s.pc + len) := by cases h; rfl

theorem loadWord_next (h : loadWord ra ea len s = .next t) :
    ∃ v u, memReadWord s ra ea = .ok (v, u) ∧ t = u.writeResult ra v len := by
  obtain ⟨⟨v, u⟩, h1, h2⟩ := map_ok (complete_next h)
  exact ⟨v, u, h1, h2⟩

theorem loadByte_next {extend : Byte → Word} (h : loadByte extend ra ea len s = .next t) :
    ea.toNat < s.mem.size ∧ t = s.writeResult ra (extend (s.mem.byteAt ea.toNat)) len := by
  obtain ⟨b, h1, h2⟩ := map_ok (complete_next h)
  obtain ⟨h3, rfl⟩ := memReadByte_ok h1
  exact ⟨h3, h2⟩

theorem storeWord_next (h : storeWord ra ea len s = .next t) :
    ∃ u, memWriteWord s ea (s.x ra) = .ok u ∧ t = u.retire (s.pc + len) := map_ok (complete_next h)

theorem storeByte_next (h : storeByte ra ea len s = .next t) :
    ∃ u, memWriteByte s ea (lowByte (s.x ra)) = .ok u ∧ t = u.retire (s.pc + len) := map_ok (complete_next h)

/-! ## Every instruction, and the step -/

/-- What an instruction can do: compute a register, set pc, halt, load a word, or store a word or a byte. -/
theorem exec_next {i : Instr} (h : exec i s = .next t) :
    (∃ ra v len, t = s.writeResult ra v len) ∨
    (∃ p, t = s.retire p) ∨
    (t = { s with halted := true }.retire s.pc) ∨
    (∃ ra ea len v u, memReadWord s ra ea = .ok (v, u) ∧ t = u.writeResult ra v len) ∨
    (∃ ea len v u, memWriteWord s ea v = .ok u ∧ t = u.retire (s.pc + len)) ∨
    (∃ ea len v u, memWriteByte s ea v = .ok u ∧ t = u.retire (s.pc + len)) := by
  cases i
  case hlt => cases h; exact .inr (.inr (.inl rfl))
  case ldwR ra rb =>
    obtain ⟨v, u, h⟩ := loadWord_next h
    exact .inr (.inr (.inr (.inl ⟨ra, _, 2, v, u, h⟩)))
  case ldwI ra rb imm =>
    obtain ⟨v, u, h⟩ := loadWord_next h
    exact .inr (.inr (.inr (.inl ⟨ra, _, 4, v, u, h⟩)))
  case ldbR ra rb => exact .inl ⟨_, _, _, (loadByte_next h).2⟩
  case ldbI ra rb imm => exact .inl ⟨_, _, _, (loadByte_next h).2⟩
  case lbuR ra rb => exact .inl ⟨_, _, _, (loadByte_next h).2⟩
  case lbuI ra rb imm => exact .inl ⟨_, _, _, (loadByte_next h).2⟩
  case stwR ra rb =>
    obtain ⟨u, h⟩ := storeWord_next h
    exact .inr (.inr (.inr (.inr (.inl ⟨_, 2, _, u, h⟩))))
  case stwI ra rb imm =>
    obtain ⟨u, h⟩ := storeWord_next h
    exact .inr (.inr (.inr (.inr (.inl ⟨_, 4, _, u, h⟩))))
  case stbR ra rb =>
    obtain ⟨u, h⟩ := storeByte_next h
    exact .inr (.inr (.inr (.inr (.inr ⟨_, 2, _, u, h⟩))))
  case stbI ra rb imm =>
    obtain ⟨u, h⟩ := storeByte_next h
    exact .inr (.inr (.inr (.inr (.inr ⟨_, 4, _, u, h⟩))))
  all_goals first
    | exact .inl ⟨_, _, _, compute_next h⟩
    | exact .inr (.inl ⟨_, branch_next h⟩)

theorem step_next (h : step s = .next t) : s.halted = false ∧ ∃ i, fetchInstr s = .ok i ∧ exec i s = .next t := by
  unfold step at h
  split at h
  · cases h
  · rename_i hh
    refine ⟨by simpa using hh, ?_⟩
    split at h
    · rename_i i hi; exact ⟨i, hi, h⟩
    · cases h

theorem fetchWord_ok (h : fetchWord s a = .ok v) :
    a.toNat % 2 = 0 ∧ a.toNat < s.mem.size ∧ v = s.mem.wordAt a.toNat := by
  unfold fetchWord at h
  split at h
  · cases h
  · rename_i ho
    split at h
    · cases h
      exact ⟨isOdd_eq_false_iff.1 (by simpa using ho), inRam_iff.1 ‹_›, rfl⟩
    · cases h

end Sys2Proof.Machine
end

