-- ==== Sys2Proof/Laws/Access.lean ====
section
/-! SUPPORT. The terms of Safety.lean beside the operations of the machine. -/

namespace Sys2Proof.Machine

/-- The word of the two bytes at an even address is the word that an access reads there (20_memory R41). -/
theorem ramWord_eq_wordAt (m : Memory) {a : Nat} (h : a % 2 = 0) : ramWord m a = m.wordAt a := by
  unfold ramWord Memory.byteAt Memory.wordAt
  generalize Config.byteOrder = o
  cases o
  · rfl
  · have h2 : (a + 1) % 2 = 1 := by omega
    simp [joinBytes, cellOf, h, h2]

/-- The same memory is the same RAM. -/
theorem sameRam_of_mem_eq {s t : State} (h : t.mem = s.mem) : SameRam s t := ⟨by rw [h], fun _ => by rw [h]⟩

/-- A fetch of a word in RAM. -/
theorem fetchWord_of_inRam {s : State} {a : Word} (h : WordInRam s.mem a) : fetchWord s a = .ok (s.mem.wordAt a.toNat) := by
  rw [fetchWord, isOdd_eq_false_iff.2 h.1, inRam_iff.2 h.2]; rfl

/-- States that differ in the trace and the cycle count alone: one is the other with them replaced. -/
theorem sameProgramState_iff {s s' : State} :
    SameProgramState s s' ↔ s' = { s with output := s'.output, cycles := s'.cycles } := by
  constructor
  · rintro ⟨h1, h2, h3, h4, h5⟩
    cases s; cases s'; simp_all
  · intro h
    rw [h]
    exact ⟨rfl, rfl, rfl, rfl, rfl⟩

end Sys2Proof.Machine
end

