-- ==== Sys2Proof/Laws/ObjectFile.lean ====
section
/-! SUPPORT. What the operations on object files can do: the symbol table, the digits of a column, the load of a line. -/

namespace Sys2Proof.Machine

variable {m m' : Memory} {lines : List (Word × Word)}

/-! ## The assembler -/

/-- A source is resolved only if no reference is declared twice, and then with its own symbol table. -/
theorem resolvedSymbols_ok {source : List SourceLine} {symbols : List (String × Nat)}
    (h : resolvedSymbols source = .ok symbols) :
    symbols = symbolTable source ∧ firstDuplicate ((symbolTable source).map Prod.fst) = none := by
  unfold resolvedSymbols at h
  split at h
  · cases h
  · cases h; exact ⟨rfl, ‹_›⟩

/-- The bytes of a line fill words up to its padded length. -/
theorem packBytes_length : ∀ bytes : List Byte, 2 * (packBytes bytes).length = padded bytes.length
  | [] => rfl
  | [_] => rfl
  | _ :: _ :: rest => by
    have := packBytes_length rest
    simp only [packBytes, padded, List.length_cons] at *
    omega

/-! ## Digits -/

theorem digit_table : ∀ n : Fin 16, digitValue (Nat.digitChar n) = n.val ∧ Nat.digitChar n ≠ '\n' := by decide

/-- The value of a hexadecimal digit. -/
theorem digitValue_digitChar {n : Nat} (h : n < 16) : digitValue (Nat.digitChar n) = n := (digit_table ⟨n, h⟩).1

theorem digitChar_ne_newline {n : Nat} (h : n < 16) : Nat.digitChar n ≠ '\n' := (digit_table ⟨n, h⟩).2

theorem hex4_toList (w : Word) : (hex4 w).toList =
    [Nat.digitChar (w.toNat / 4096), Nat.digitChar (w.toNat / 256 % 16), Nat.digitChar (w.toNat / 16 % 16),
      Nat.digitChar (w.toNat % 16)] := by simp [hex4]

/-- The four digits written for a word are read as that word. -/
theorem readHex4_hex4 (w : Word) : readHex4 (hex4 w).toList = some w := by
  have := w.isLt
  have h1 := digitValue_digitChar (n := w.toNat / 4096) (by omega)
  have h2 := digitValue_digitChar (n := w.toNat / 256 % 16) (by omega)
  have h3 := digitValue_digitChar (n := w.toNat / 16 % 16) (by omega)
  have h4 := digitValue_digitChar (n := w.toNat % 16) (by omega)
  have hb : ((hex4 w).toList.any fun c => decide (16 ≤ digitValue c)) = false := by
    simp only [hex4_toList, List.any_cons, List.any_nil, h1, h2, h3, h4, Bool.or_false, Bool.or_eq_false_iff,
      decide_eq_false_iff_not]
    omega
  have hl : (hex4 w).toList.length = 4 := by rw [hex4_toList]; rfl
  have he : (hex4 w).toList.isEmpty = false := by rw [hex4_toList]; rfl
  rw [readHex4, if_pos hl, digitsValue, hb, he]
  simp only [hex4_toList, Bool.or_false, Bool.false_eq_true, if_false, List.foldl_cons, List.foldl_nil, h1, h2, h3, h4,
    Option.map_some]
  congr 1
  apply BitVec.eq_of_toNat_eq
  rw [BitVec.toNat_ofNat]
  omega

/-! ## Loading -/

/-- A line is loaded only at an even address in RAM, and then its word is stored there. -/
theorem loadLine_ok {line : Word × Word} (h : loadLine m line = some m') :
    line.1.toNat % 2 = 0 ∧ line.1.toNat < m.size ∧ m' = m.setWordAt line.1.toNat line.2 := by
  unfold loadLine at h
  split at h
  · rename_i hc
    cases h
    exact ⟨isOdd_eq_false_iff.1 hc.1, inRam_iff.1 hc.2, rfl⟩
  · cases h

/-- Loading keeps the canonical form of memory. -/
theorem loadLines_wf (hm : m.wf = true) (h : loadLines m lines = some m') : m'.wf = true := by
  induction lines generalizing m with
  | nil => cases h; exact hm
  | cons line rest ih =>
    obtain ⟨m1, h1, h2⟩ := Option.bind_eq_some_iff.1 h
    obtain ⟨he, hr, rfl⟩ := loadLine_ok h1
    refine ih (setWordAt_wf hm _ ?_) h2
    have := m.size_even
    omega

end Sys2Proof.Machine
end

