-- ==== Sys2Proof/Laws/PerInstr.lean ====
section
/-! SUPPORT. One statement about every instruction as syntax, made instruction by instruction: its encoded form. -/

namespace Sys2Proof.Laws.EncodedForm

/-- An instruction is well formed, has one word or two according to its immediate, bit 8 of its first word says which
(30_encoding R73), and that first word is not reserved (R80). -/
def Statement (i : Instr) : Prop :=
  i.wellFormed = true ∧ (encode i).length = (if i.fields.imm.isSome then 2 else 1) ∧
    hasImmediate i.fields.headWord = i.fields.imm.isSome ∧ (Fields.ofWords i.fields.headWord 0).pairDefined = true

/-- The statement from the two parts of it that the fields alone decide. -/
theorem of_fields {i : Instr} (hw : i.wellFormed = true) (hl : (encode i).length = (if i.fields.imm.isSome then 2 else 1)) :
    Statement i := by
  refine ⟨hw, hl, hasImmediate_headWord _, ?_⟩
  have h := (Bool.and_eq_true_iff.1 hw).1
  simpa only [Fields.pairDefined, Fields.ofWords, opcodeOf_headWord, opcode2Of_headWord] using h

theorem andR (ra rb : RegIdx) : Statement (.andR ra rb) := of_fields rfl rfl
theorem andI (ra rb : RegIdx) (imm : Word) : Statement (.andI ra rb imm) := of_fields rfl rfl
theorem orR (ra rb : RegIdx) : Statement (.orR ra rb) := of_fields rfl rfl
theorem orI (ra rb : RegIdx) (imm : Word) : Statement (.orI ra rb imm) := of_fields rfl rfl
theorem xorR (ra rb : RegIdx) : Statement (.xorR ra rb) := of_fields rfl rfl
theorem xorI (ra rb : RegIdx) (imm : Word) : Statement (.xorI ra rb imm) := of_fields rfl rfl
theorem addR (ra rb : RegIdx) : Statement (.addR ra rb) := of_fields rfl rfl
theorem addI (ra rb : RegIdx) (imm : Word) : Statement (.addI ra rb imm) := of_fields rfl rfl
theorem subR (ra rb : RegIdx) : Statement (.subR ra rb) := of_fields rfl rfl
theorem subI (ra rb : RegIdx) (imm : Word) : Statement (.subI ra rb imm) := of_fields rfl rfl
theorem tltR (ra rb : RegIdx) : Statement (.tltR ra rb) := of_fields rfl rfl
theorem tltI (ra rb : RegIdx) (imm : Word) : Statement (.tltI ra rb imm) := of_fields rfl rfl
theorem tgeR (ra rb : RegIdx) : Statement (.tgeR ra rb) := of_fields rfl rfl
theorem tgeI (ra rb : RegIdx) (imm : Word) : Statement (.tgeI ra rb imm) := of_fields rfl rfl
theorem tblR (ra rb : RegIdx) : Statement (.tblR ra rb) := of_fields rfl rfl
theorem tblI (ra rb : RegIdx) (imm : Word) : Statement (.tblI ra rb imm) := of_fields rfl rfl
theorem taeR (ra rb : RegIdx) : Statement (.taeR ra rb) := of_fields rfl rfl
theorem taeI (ra rb : RegIdx) (imm : Word) : Statement (.taeI ra rb imm) := of_fields rfl rfl
theorem teqR (ra rb : RegIdx) : Statement (.teqR ra rb) := of_fields rfl rfl
theorem teqI (ra rb : RegIdx) (imm : Word) : Statement (.teqI ra rb imm) := of_fields rfl rfl
theorem tneR (ra rb : RegIdx) : Statement (.tneR ra rb) := of_fields rfl rfl
theorem tneI (ra rb : RegIdx) (imm : Word) : Statement (.tneI ra rb imm) := of_fields rfl rfl
theorem lslR (ra rb : RegIdx) : Statement (.lslR ra rb) := of_fields rfl rfl
theorem lslI (ra rb : RegIdx) (imm : Word) : Statement (.lslI ra rb imm) := of_fields rfl rfl
theorem lsrR (ra rb : RegIdx) : Statement (.lsrR ra rb) := of_fields rfl rfl
theorem lsrI (ra rb : RegIdx) (imm : Word) : Statement (.lsrI ra rb imm) := of_fields rfl rfl
theorem asrR (ra rb : RegIdx) : Statement (.asrR ra rb) := of_fields rfl rfl
theorem asrI (ra rb : RegIdx) (imm : Word) : Statement (.asrI ra rb imm) := of_fields rfl rfl
theorem ldwR (ra rb : RegIdx) : Statement (.ldwR ra rb) := of_fields rfl rfl
theorem ldwI (ra rb : RegIdx) (imm : Word) : Statement (.ldwI ra rb imm) := of_fields rfl rfl
theorem ldbR (ra rb : RegIdx) : Statement (.ldbR ra rb) := of_fields rfl rfl
theorem ldbI (ra rb : RegIdx) (imm : Word) : Statement (.ldbI ra rb imm) := of_fields rfl rfl
theorem lbuR (ra rb : RegIdx) : Statement (.lbuR ra rb) := of_fields rfl rfl
theorem lbuI (ra rb : RegIdx) (imm : Word) : Statement (.lbuI ra rb imm) := of_fields rfl rfl
theorem stwR (ra rb : RegIdx) : Statement (.stwR ra rb) := of_fields rfl rfl
theorem stwI (ra rb : RegIdx) (imm : Word) : Statement (.stwI ra rb imm) := of_fields rfl rfl
theorem stbR (ra rb : RegIdx) : Statement (.stbR ra rb) := of_fields rfl rfl
theorem stbI (ra rb : RegIdx) (imm : Word) : Statement (.stbI ra rb imm) := of_fields rfl rfl
theorem bltR (ra rb : RegIdx) : Statement (.bltR ra rb) := of_fields rfl rfl
theorem bltI (ra rb : RegIdx) (imm : Word) : Statement (.bltI ra rb imm) := of_fields rfl rfl
theorem bgeR (ra rb : RegIdx) : Statement (.bgeR ra rb) := of_fields rfl rfl
theorem bgeI (ra rb : RegIdx) (imm : Word) : Statement (.bgeI ra rb imm) := of_fields rfl rfl
theorem bblR (ra rb : RegIdx) : Statement (.bblR ra rb) := of_fields rfl rfl
theorem bblI (ra rb : RegIdx) (imm : Word) : Statement (.bblI ra rb imm) := of_fields rfl rfl
theorem baeR (ra rb : RegIdx) : Statement (.baeR ra rb) := of_fields rfl rfl
theorem baeI (ra rb : RegIdx) (imm : Word) : Statement (.baeI ra rb imm) := of_fields rfl rfl
theorem beqR (ra rb : RegIdx) : Statement (.beqR ra rb) := of_fields rfl rfl
theorem beqI (ra rb : RegIdx) (imm : Word) : Statement (.beqI ra rb imm) := of_fields rfl rfl
theorem bneR (ra rb : RegIdx) : Statement (.bneR ra rb) := of_fields rfl rfl
theorem bneI (ra rb : RegIdx) (imm : Word) : Statement (.bneI ra rb imm) := of_fields rfl rfl
theorem hlt (ra rb : RegIdx) : Statement (.hlt ra rb) := of_fields rfl rfl

end Sys2Proof.Laws.EncodedForm
end

