-- ==== Sys2Proof/Tests/Slice0.lean ====
section
/-! SUPPORT. The author's own tests. The words and the expected results are those of the tables of
spec/95_test_vectors.md (sections 1, 3, 4 and 5), or are worked out by hand from the rule named. -/

set_option maxRecDepth 4000

namespace Sys2Proof.Tests

open Sys2Proof Sys2Proof.Machine

/-! ## WellFormed: each check refuses an ill-formed term -/

/-- A pair that is not one of the 26 (30_encoding R80). -/
theorem test_pairDefined_refuses : (Fields.mk 0b000 0b0001 1 2 none).pairDefined = false := by decide

theorem test_wellFormed_refuses_reserved : (Fields.mk 0b011 0b0000 0 0 (some 7)).wellFormed = false := by decide

/-- hlt with an immediate (30_encoding R82). -/
theorem test_haltIsShort_refuses : (Fields.mk 0b111 0b1100 0 0 (some 0)).haltIsShort = false := by decide

theorem test_wellFormed_accepts_halt : (Fields.mk 0b111 0b1100 10 7 none).wellFormed = true := by decide

/-! ## Decoding: the words of 95_test_vectors section 3 -/

theorem test_decode_and :
    decodeWords 0x0012 0 = .ok (.andR 1 2) ∧ decodeWords 0x01af 0xbeef = .ok (.andI 10 15 0xbeef) := by decide

theorem test_decode_or :
    decodeWords 0x0412 0 = .ok (.orR 1 2) ∧ decodeWords 0x05af 0xbeef = .ok (.orI 10 15 0xbeef) := by decide

theorem test_decode_xor :
    decodeWords 0x0612 0 = .ok (.xorR 1 2) ∧ decodeWords 0x07af 0xbeef = .ok (.xorI 10 15 0xbeef) := by decide

theorem test_decode_add :
    decodeWords 0x0812 0 = .ok (.addR 1 2) ∧ decodeWords 0x09af 0xbeef = .ok (.addI 10 15 0xbeef) := by decide

theorem test_decode_sub :
    decodeWords 0x0a12 0 = .ok (.subR 1 2) ∧ decodeWords 0x0baf 0xbeef = .ok (.subI 10 15 0xbeef) := by decide

theorem test_decode_tlt :
    decodeWords 0xa012 0 = .ok (.tltR 1 2) ∧ decodeWords 0xa1af 0xbeef = .ok (.tltI 10 15 0xbeef) := by decide

theorem test_decode_tge :
    decodeWords 0xa212 0 = .ok (.tgeR 1 2) ∧ decodeWords 0xa3af 0xbeef = .ok (.tgeI 10 15 0xbeef) := by decide

theorem test_decode_tbl :
    decodeWords 0xa812 0 = .ok (.tblR 1 2) ∧ decodeWords 0xa9af 0xbeef = .ok (.tblI 10 15 0xbeef) := by decide

theorem test_decode_tae :
    decodeWords 0xaa12 0 = .ok (.taeR 1 2) ∧ decodeWords 0xabaf 0xbeef = .ok (.taeI 10 15 0xbeef) := by decide

theorem test_decode_teq :
    decodeWords 0xb012 0 = .ok (.teqR 1 2) ∧ decodeWords 0xb1af 0xbeef = .ok (.teqI 10 15 0xbeef) := by decide

theorem test_decode_tne :
    decodeWords 0xb212 0 = .ok (.tneR 1 2) ∧ decodeWords 0xb3af 0xbeef = .ok (.tneI 10 15 0xbeef) := by decide

theorem test_decode_lsl :
    decodeWords 0x3012 0 = .ok (.lslR 1 2) ∧ decodeWords 0x31af 0xbeef = .ok (.lslI 10 15 0xbeef) := by decide

theorem test_decode_lsr :
    decodeWords 0x3412 0 = .ok (.lsrR 1 2) ∧ decodeWords 0x35af 0xbeef = .ok (.lsrI 10 15 0xbeef) := by decide

theorem test_decode_asr :
    decodeWords 0x3612 0 = .ok (.asrR 1 2) ∧ decodeWords 0x37af 0xbeef = .ok (.asrI 10 15 0xbeef) := by decide

theorem test_decode_ldw :
    decodeWords 0x4012 0 = .ok (.ldwR 1 2) ∧ decodeWords 0x41af 0xbeef = .ok (.ldwI 10 15 0xbeef) := by decide

theorem test_decode_ldb :
    decodeWords 0x4412 0 = .ok (.ldbR 1 2) ∧ decodeWords 0x45af 0xbeef = .ok (.ldbI 10 15 0xbeef) := by decide

theorem test_decode_lbu :
    decodeWords 0x4612 0 = .ok (.lbuR 1 2) ∧ decodeWords 0x47af 0xbeef = .ok (.lbuI 10 15 0xbeef) := by decide

theorem test_decode_stw :
    decodeWords 0x4812 0 = .ok (.stwR 1 2) ∧ decodeWords 0x49af 0xbeef = .ok (.stwI 10 15 0xbeef) := by decide

theorem test_decode_stb :
    decodeWords 0x4c12 0 = .ok (.stbR 1 2) ∧ decodeWords 0x4daf 0xbeef = .ok (.stbI 10 15 0xbeef) := by decide

theorem test_decode_blt :
    decodeWords 0x8012 0 = .ok (.bltR 1 2) ∧ decodeWords 0x81af 0xbeef = .ok (.bltI 10 15 0xbeef) := by decide

theorem test_decode_bge :
    decodeWords 0x8212 0 = .ok (.bgeR 1 2) ∧ decodeWords 0x83af 0xbeef = .ok (.bgeI 10 15 0xbeef) := by decide

theorem test_decode_bbl :
    decodeWords 0x8812 0 = .ok (.bblR 1 2) ∧ decodeWords 0x89af 0xbeef = .ok (.bblI 10 15 0xbeef) := by decide

theorem test_decode_bae :
    decodeWords 0x8a12 0 = .ok (.baeR 1 2) ∧ decodeWords 0x8baf 0xbeef = .ok (.baeI 10 15 0xbeef) := by decide

theorem test_decode_beq :
    decodeWords 0x9012 0 = .ok (.beqR 1 2) ∧ decodeWords 0x91af 0xbeef = .ok (.beqI 10 15 0xbeef) := by decide

theorem test_decode_bne :
    decodeWords 0x9212 0 = .ok (.bneR 1 2) ∧ decodeWords 0x93af 0xbeef = .ok (.bneI 10 15 0xbeef) := by decide

theorem test_decode_hlt : decodeWords 0xf800 0 = .ok (.hlt 0 0) ∧ decodeWords 0xf8a7 0 = .ok (.hlt 10 7) := by decide

theorem test_decode_zero : decodeWords 0x0000 0 = .ok (.andR 0 0) := by decide

/-- The reserved words of the second table. -/
theorem test_decode_reserved :
    ([0xf900, 0x0200, 0x0212, 0x0c00, 0x2000, 0x3200, 0x4a00, 0x6000, 0x7fff, 0x8400, 0xb400, 0xc000, 0xdfff, 0xe000,
      0xffff] : List Word).all isReserved = true := by decide

theorem test_decode_bytes : decode [0x09, 0xf0, 0x00, 0x10, 0xff] = .ok (.addI 15 0 16) := by decide

theorem test_decode_truncated : decode [0x09, 0xf0, 0x00] = .error .truncated := by decide

/-- The reserved check comes before the immediate word is asked for (60_exceptions R214). -/
theorem test_decode_reserved_first : decode [0x03, 0x00] = .error (.reserved 0x0300) := by decide

/-- The first word is bits 15..0 of the number, the second bits 31..16. -/
theorem test_decodeTableWord :
    decodeTableWord 32 0xbeef09af = some (.addI 10 15 0xbeef) ∧ decodeTableWord 16 0x900f = some (.beqR 0 15) ∧
      decodeTableWord 16 0x6000 = none := by decide

/-- 95_test_vectors section 1.3. -/
theorem test_encode : encode (.ldwI 1 2 0xfff0) = [0x4112, 0xfff0] ∧ encode (.stwR 1 2) = [0x4812] := by decide

/-! ## One step -/

/-- The state before a vector of 95_test_vectors section 4: pc = 0x0100, the given registers over the start values, the
words 0x12f4 and 0x80ff at 0x0200. -/
def start (regs : List (RegIdx × Word)) : State :=
  { regs.foldl (fun s r => s.setX r.1 r.2) State.reset with
    pc := 0x0100, mem := (simulator.initMem.setWordAt 0x0200 0x12f4).setWordAt 0x0202 0x80ff }

/-- One step with the words placed at pc. -/
def stepOn (words : List Word) (s : State) : Result := step (placeWords s words)

/-- The outcome is a next state with the property. -/
def nextHas (r : Result) (p : State → Bool) : Bool :=
  match r with
  | .next t => p t
  | _ => false

/-- The outcome is the fault. -/
def isFault (r : Result) (f : Fault) : Bool :=
  match r with
  | .fault g => g == f
  | _ => false

/-- The register holds the value and pc is the address. -/
def has (i : RegIdx) (v p : Word) (t : State) : Bool := t.x i == v && t.pc == p

/-- The word of RAM at the even address has the value and pc is the address. -/
def hasWord (a : Nat) (v p : Word) (t : State) : Bool := t.mem.wordAt a == v && t.pc == p

/-! ### Section 4.1 -/

theorem test_andR : nextHas (stepOn [0x0012] (start [(1, 0xff00), (2, 0x0ff0)])) (has 1 0x0f00 0x0102) = true := by decide

theorem test_andI : nextHas (stepOn [0x0112, 0x007b] (start [(1, 0xaaaa), (2, 0x00ff)])) (has 1 0x007b 0x0104) = true := by decide

theorem test_orR : nextHas (stepOn [0x0412] (start [(1, 0xff00), (2, 0x0ff0)])) (has 1 0xfff0 0x0102) = true := by decide

theorem test_orI : nextHas (stepOn [0x0560, 0x022b] (start [(6, 0xffff)])) (has 6 0x022b 0x0104) = true := by decide

theorem test_xorR : nextHas (stepOn [0x0612] (start [(1, 0xff00), (2, 0x0ff0)])) (has 1 0xf0f0 0x0102) = true := by decide

theorem test_xorI : nextHas (stepOn [0x0755, 0xffff] (start [(5, 0x00ff)])) (has 5 0xff00 0x0104) = true := by decide

theorem test_addR : nextHas (stepOn [0x0812] (start [(1, 0xffff), (2, 0x0001)])) (has 1 0x0000 0x0102) = true := by decide

theorem test_addI : nextHas (stepOn [0x0912, 0xfff0] (start [(2, 0x0100)])) (has 1 0x00f0 0x0104) = true := by decide

theorem test_addI_r0 : nextHas (stepOn [0x0900, 0x7777] (start [])) (has 0 0x0000 0x0104) = true := by decide

theorem test_subR : nextHas (stepOn [0x0a12] (start [(1, 0x0000), (2, 0x0001)])) (has 1 0xffff 0x0102) = true := by decide

theorem test_subI : nextHas (stepOn [0x0b12, 0x0005] (start [(1, 0x9999), (2, 0x0003)])) (has 1 0xfffe 0x0104) = true := by decide

/-! ### Section 4.2: the rows 0x8000, 0x7fff and 0x0000, 0xffff tell signed from unsigned -/

theorem test_tltR : nextHas (stepOn [0xa012] (start [(1, 0x8000), (2, 0x7fff)])) (has 1 0x0001 0x0102) = true := by decide

theorem test_tltI : nextHas (stepOn [0xa131, 0xffff] (start [(1, 0x0000)])) (has 3 0x0000 0x0104) = true := by decide

theorem test_tgeR : nextHas (stepOn [0xa212] (start [(1, 0x8000), (2, 0x7fff)])) (has 1 0x0000 0x0102) = true := by decide

theorem test_tgeI : nextHas (stepOn [0xa331, 0xffff] (start [(1, 0x0000)])) (has 3 0x0001 0x0104) = true := by decide

theorem test_tblR : nextHas (stepOn [0xa812] (start [(1, 0x8000), (2, 0x7fff)])) (has 1 0x0000 0x0102) = true := by decide

theorem test_tblI : nextHas (stepOn [0xa931, 0xffff] (start [(1, 0x0000)])) (has 3 0x0001 0x0104) = true := by decide

theorem test_taeR : nextHas (stepOn [0xaa12] (start [(1, 0x8000), (2, 0x7fff)])) (has 1 0x0001 0x0102) = true := by decide

theorem test_taeI : nextHas (stepOn [0xab31, 0xffff] (start [(1, 0x0000)])) (has 3 0x0000 0x0104) = true := by decide

theorem test_teqR : nextHas (stepOn [0xb012] (start [(1, 0xabcd), (2, 0xabcd)])) (has 1 0x0001 0x0102) = true := by decide

theorem test_teqI : nextHas (stepOn [0xb131, 0xffff] (start [(1, 0x0000)])) (has 3 0x0000 0x0104) = true := by decide

theorem test_tneR : nextHas (stepOn [0xb212] (start [(1, 0x0001), (2, 0x0001)])) (has 1 0x0000 0x0102) = true := by decide

theorem test_tneI : nextHas (stepOn [0xb331, 0x0000] (start [(1, 0x0500), (3, 0xdead)])) (has 3 0x0001 0x0104) = true := by decide

/-! ### Section 4.3 -/

theorem test_lslR : nextHas (stepOn [0x3012] (start [(1, 0x8001), (2, 0x0004)])) (has 1 0x0010 0x0102) = true := by decide

theorem test_lslI : nextHas (stepOn [0x3112, 0x000f] (start [(2, 0x8001)])) (has 1 0x8000 0x0104) = true := by decide

theorem test_lsrR : nextHas (stepOn [0x3412] (start [(1, 0x8001), (2, 0x0004)])) (has 1 0x0800 0x0102) = true := by decide

theorem test_lsrI : nextHas (stepOn [0x3512, 0x000f] (start [(2, 0x8001)])) (has 1 0x0001 0x0104) = true := by decide

theorem test_asrR : nextHas (stepOn [0x3612] (start [(1, 0x8001), (2, 0x0004)])) (has 1 0xf800 0x0102) = true := by decide

theorem test_asrI : nextHas (stepOn [0x3712, 0x000f] (start [(2, 0x8001)])) (has 1 0xffff 0x0104) = true := by decide

/-- An amount of 16 gives the open parameter, in the regular and the immediate form (42_shift R123). -/
theorem test_shift_over :
    execLslI 1 2 16 (start [(2, 0x8001)]) = .next ((start [(2, 0x8001)]).writeResult 1 (Config.shiftOver .lsl 0x8001 16) 4) ∧
    execAsrR 1 2 (start [(1, 0x8001), (2, 0xffff)]) =
      .next ((start [(1, 0x8001), (2, 0xffff)]).writeResult 1 (Config.shiftOver .asr 0x8001 0xffff) 2) :=
  ⟨rfl, rfl⟩

/-! ### Section 4.4 -/

theorem test_ldwR : nextHas (stepOn [0x4022] (start [(2, 0x0200)])) (has 2 0x12f4 0x0102) = true := by decide

theorem test_ldwI : nextHas (stepOn [0x4112, 0xfff0] (start [(2, 0x0210)])) (has 1 0x12f4 0x0104) = true := by decide

theorem test_stwR : nextHas (stepOn [0x4822] (start [(2, 0x0200)])) (hasWord 0x0200 0x0200 0x0102) = true := by decide

theorem test_stwI : nextHas (stepOn [0x4912, 0x0004] (start [(1, 0xabcd), (2, 0x0200)])) (hasWord 0x0204 0xabcd 0x0104) = true := by decide

/-- The byte a load of a byte extends, as the byte order says: the rows of ldb and lbu. -/
theorem test_byte_rows :
    [0x0200, 0x0201, 0x0202, 0x0203].map (fun a => sext16 ((start []).mem.cell (cellOf .big a))) =
      [0x0012, 0xfff4, 0xff80, 0xffff] ∧
    [0x0200, 0x0201, 0x0202, 0x0203].map (fun a => sext16 ((start []).mem.cell (cellOf .little a))) =
      [0xfff4, 0x0012, 0xffff, 0xff80] ∧
    [0x0200, 0x0201, 0x0202, 0x0203].map (fun a => zext16 ((start []).mem.cell (cellOf .big a))) =
      [0x0012, 0x00f4, 0x0080, 0x00ff] := by decide

theorem test_ldbR : nextHas (execLdbR 1 2 (start [(2, 0x0201)]))
    (has 1 (if Config.byteOrder = .big then 0xfff4 else 0x0012) 0x0102) = true := by
  unfold execLdbR loadByte memReadByte Memory.byteAt
  cases Config.byteOrder <;> decide

theorem test_ldbI : nextHas (execLdbI 1 2 2 (start [(2, 0x0200)]))
    (has 1 (if Config.byteOrder = .big then 0xff80 else 0xffff) 0x0104) = true := by
  unfold execLdbI loadByte memReadByte Memory.byteAt
  cases Config.byteOrder <;> decide

theorem test_lbuR : nextHas (execLbuR 1 2 (start [(2, 0x0201)]))
    (has 1 (if Config.byteOrder = .big then 0x00f4 else 0x0012) 0x0102) = true := by
  unfold execLbuR loadByte memReadByte Memory.byteAt
  cases Config.byteOrder <;> decide

theorem test_lbuI : nextHas (execLbuI 1 2 3 (start [(2, 0x0200)]))
    (has 1 (if Config.byteOrder = .big then 0x00ff else 0x0080) 0x0104) = true := by
  unfold execLbuI loadByte memReadByte Memory.byteAt
  cases Config.byteOrder <;> decide

theorem test_stbR : nextHas (execStbR 1 2 (start [(1, 0xabcd), (2, 0x0201)]))
    (hasWord 0x0200 (if Config.byteOrder = .big then 0x12cd else 0xcdf4) 0x0102) = true := by
  unfold execStbR storeByte memWriteByte Memory.setByteAt
  cases Config.byteOrder <;> decide

theorem test_stbI : nextHas (execStbI 0 2 3 (start [(2, 0x0200)]))
    (hasWord 0x0202 (if Config.byteOrder = .big then 0x8000 else 0x00ff) 0x0104) = true := by
  unfold execStbI storeByte memWriteByte Memory.setByteAt
  cases Config.byteOrder <;> decide

/-! ### Section 4.5 -/

theorem test_bltR : nextHas (stepOn [0x8012] (start [(1, 0x8000), (2, 0x0400)])) (fun t => t.pc == 0x0400) = true := by decide

theorem test_bgeR : nextHas (stepOn [0x8212] (start [(1, 0x8000), (2, 0x0400)])) (fun t => t.pc == 0x0102) = true := by decide

theorem test_bblR : nextHas (stepOn [0x8812] (start [(1, 0xffff), (2, 0x0400)])) (fun t => t.pc == 0x0102) = true := by decide

theorem test_baeR : nextHas (stepOn [0x8a12] (start [(1, 0x0000), (2, 0x0400)])) (fun t => t.pc == 0x0400) = true := by decide

theorem test_beqR : nextHas (stepOn [0x9012] (start [(1, 0x0000), (2, 0x0400)])) (fun t => t.pc == 0x0400) = true := by decide

theorem test_bneR : nextHas (stepOn [0x9212] (start [(1, 0x0001), (2, 0x0400)])) (fun t => t.pc == 0x0400) = true := by decide

theorem test_bltI : nextHas (stepOn [0x8112, 0x0400] (start [(1, 0x0000), (2, 0xffff)])) (fun t => t.pc == 0x0104) = true := by decide

theorem test_bgeI : nextHas (stepOn [0x8312, 0x0400] (start [(1, 0x0000), (2, 0xffff)])) (fun t => t.pc == 0x0400) = true := by decide

theorem test_bblI : nextHas (stepOn [0x8912, 0x0400] (start [(1, 0x0000), (2, 0xffff)])) (fun t => t.pc == 0x0400) = true := by decide

theorem test_baeI : nextHas (stepOn [0x8b12, 0x0400] (start [(1, 0x0000), (2, 0xffff)])) (fun t => t.pc == 0x0104) = true := by decide

theorem test_beqI : nextHas (stepOn [0x9112, 0x0400] (start [(1, 0x0000), (2, 0xffff)])) (fun t => t.pc == 0x0104) = true := by decide

theorem test_bneI : nextHas (stepOn [0x9312, 0x0400] (start [(1, 0x0000), (2, 0xffff)])) (fun t => t.pc == 0x0400) = true := by decide

/-- A branch to an odd address completes; the fetch there faults (44_control_transfer R147). -/
theorem test_branch_odd : nextHas (stepOn [0x9001] (start [(1, 0x0401)]))
    (fun t => isFault (step t) (.misalignedFetch 0x0401)) = true := by decide

/-! ### Section 4.6 -/

theorem test_hlt : nextHas (stepOn [0xf8ff] (start []))
    (fun t => t.halted && t.pc == 0x0100 && t.cycles == 1 && isFault (step t) .halted) = true := by decide

/-! ### Section 5 -/

theorem test_fetch_odd : isFault (stepOn [] { start [] with pc := 0x0101 }) (.misalignedFetch 0x0101) = true := by decide

theorem test_fetch_service : isFault (stepOn [] { start [] with pc := 0xf000 }) (.accessFault 0xf000 .fetch) = true := by decide

theorem test_fetch_unmapped : isFault (stepOn [] { start [] with pc := 0xfffe }) (.accessFault 0xfffe .fetch) = true := by decide

theorem test_fetch_immediate : isFault (stepOn [0x0950] { start [] with pc := 0xeffe }) (.accessFault 0xf000 .fetch) = true := by decide

theorem test_reserved_before_immediate : isFault (stepOn [0x0300] { start [] with pc := 0xeffe }) (.reservedInstruction 0xeffe 0x0300) = true := by decide

theorem test_reserved : isFault (stepOn [0x6000] (start [])) (.reservedInstruction 0x0100 0x6000) = true := by decide

theorem test_reserved_hlt : isFault (stepOn [0xf900] (start [])) (.reservedInstruction 0x0100 0xf900) = true := by decide

theorem test_ldw_odd : isFault (stepOn [0x4012] (start [(2, 0x0201)])) (.misalignedAccess 0x0201) = true := by decide

theorem test_stw_odd : isFault (stepOn [0x4812] (start [(2, 0xf001)])) (.misalignedAccess 0xf001) = true := by decide

theorem test_ldw_unmapped : isFault (stepOn [0x4012] (start [(2, 0xf020)])) (.accessFault 0xf020 .read) = true := by decide

theorem test_ldw_slot : isFault (stepOn [0x4012] (start [(2, 0xf012)])) (.accessFault 0xf012 .read) = true := by decide

theorem test_ldw_output : isFault (stepOn [0x4012] (start [(2, 0xf000)])) (.accessFault 0xf000 .read) = true := by decide

theorem test_stw_input : isFault (stepOn [0x4812] (start [(2, 0xf010)])) (.accessFault 0xf010 .write) = true := by decide

theorem test_lbu_service : isFault (stepOn [0x4612] (start [(2, 0xf014)])) (.accessFault 0xf014 .read) = true := by decide

theorem test_stack_overflow : isFault (stepOn [0x485e] (start [(14, 0xfffe)])) (.accessFault 0xfffe .write) = true := by decide

/-- A RAM of 16 bytes (MEM_SIZE an argument, 00_scope R6): its last word is loaded, the word after it is unmapped, and the
immediate word of an instruction in the last word is fetched from the first address outside RAM. -/
theorem test_small_ram :
    let s := State.start ⟨(Memory.blank 8).setWordAt 0x000e 0x0950, 0x0010⟩
    nextHas (execLdwI 5 0 0x000e s) (has 5 0x0950 4) = true ∧
    isFault (execLdwI 5 0 0x0010 s) (.accessFault 0x0010 .read) = true ∧
    isFault (execStwI 5 0 0xeffe s) (.accessFault 0xeffe .write) = true ∧
    isFault (step { s with pc := 0x000e }) (.accessFault 0x0010 .fetch) = true := by decide

/-! ### Services (60_exceptions R220 to R230) -/

/-- `stw v0,zr,0xf000` with v0 = 579 (R224); no register and no memory changes. -/
theorem test_write_int : nextHas (stepOn [0x4950, 0xf000] (start [(5, 0x0243)]))
    (fun t => t.output == [.value .writeIntLn 0x0243] && t.pc == 0x0104 && t.x 5 == 0x0243) = true := by decide

/-- The service is selected by the effective address, however it was formed (R220). -/
theorem test_write_hex_displacement : nextHas (stepOn [0x4956, 0x1000] (start [(6, 0xe00c)]))
    (fun t => t.output == [.value .writeHexLn 0x0000]) = true := by decide

/-- Read int gives the oracle's next value and consumes it; into r0 it is consumed and dropped (R227, D23). -/
theorem test_read_int : nextHas (stepOn [0x4150, 0xf010] (start []))
    (fun t => t.inputsRead == 1 && t.pc == 0x0104) = true ∧
    nextHas (execLdwI 0 0 0xf010 (start [])) (fun t => t.inputsRead == 1 && t.x 0 == 0) = true := by decide

theorem test_read_int_value :
    ∃ t, execLdwI 5 0 0xf010 (start []) = .next t ∧ t.x 5 = Config.inputValue 0 := ⟨_, rfl, rfl⟩

/-- Memory with the string "hh" at 0x0020, whatever the byte order: the two bytes of its word are equal. -/
def stringState : State := { start [(5, 0x0020)] with mem := simulator.initMem.setWordAt 0x0020 0x6868 }

theorem stringState_bytes : BytesAt stringState.mem 0x0020 ([0x68, 0x68] ++ [0]) := by
  have h : ∀ i : Fin 3, stringState.mem.byteAt (0x0020 + i.val) = ([0x68, 0x68, 0] : List Byte)[i.val] := by
    unfold Memory.byteAt
    cases Config.byteOrder <;> decide
  exact fun i hi => h ⟨i, hi⟩

/-- Write string reads up to the zero byte (R226). -/
theorem test_write_string : nextHas (execStwI 5 0 0xf008 stringState)
    (fun t => t.output == [.string .writeStringLn [0x68, 0x68]]) = true := by
  have h : stringState.mem.stringAt 0x0020 = .ok [0x68, 0x68] := by
    unfold Memory.stringAt
    rw [show (0x0020 : Word).toNat = 0x0020 from rfl, stringFrom_of_bytes (bytes := [0x68, 0x68]) (by decide) (by decide)
      (fun i hi => stringState_bytes i (by simp at hi ⊢; omega) |>.trans (List.getElem_append_left hi))
      (stringState_bytes 2 (by decide))]
  change nextHas (complete (((match stringState.mem.stringAt 0x0020 with
    | .ok bytes => Except.ok (OutEvent.string .writeStringLn bytes)
    | .error a => .error (Fault.accessFault a .read)).map stringState.emit).map _)) _ = true
  rw [h]
  rfl

/-! ### The placing of an instruction, the loader -/

theorem test_withFetchWord : nextHas (step (State.reset.withFetchWord 32 0x303909a0)) (has 10 0x3039 4) = true := by
  decide

/-- 95_test_vectors section 1.1: the program at address 0, its first instruction run. -/
theorem test_launch :
    (match State.launch simulator [0x4150, 0x000c, 0x4160, 0x000e, 0x0856, 0xf800, 0x007b, 0x01c8] with
    | some s => nextHas (step s) (has 5 0x007b 4)
    | none => false) = true := by decide

/-- The size of RAM and SP_RESET are arguments of the launch (00_scope R6); nine words do not fit in 16 bytes. -/
theorem test_launch_small_ram :
    (match State.launch ⟨Memory.blank 8, 0x0010⟩ (List.replicate 8 0xf800) with
    | some s => s.x 14 == 0x0010 && s.mem.wordAt 0x000e == 0xf800 && nextHas (step s) (fun t => t.halted)
    | none => false) = true ∧
    State.launch ⟨Memory.blank 8, 0x0010⟩ (List.replicate 9 0xf800) = none := by decide

/-! ## The assembler -/

/-- The source of 95_test_vectors section 1.1. -/
def addSource : String :=
"main
    ldw v0,zr,var_a
    ldw v1,zr,var_b
    add v0,v1
    hlt
var_a
    123
var_b
    456
"

/-- The lines read from it. -/
def addLines : List SourceLine :=
  [.label "main", .instr .ldw 5 0 (some (.symbol "var_a")), .instr .ldw 6 0 (some (.symbol "var_b")),
   .instr .add 5 6 none, .halt, .label "var_a", .words [.number 123], .label "var_b", .words [.number 456]]

theorem test_readSource : readSource addSource = .ok addLines := by decide

/-- The object code as the manual prints it. -/
theorem test_assemble : assemble addLines =
    .ok ([0x4150, 0x000c, 0x4160, 0x000e, 0x0856, 0xf800, 0x007b, 0x01c8].map .word) := by decide

theorem test_listing : listing addLines =
    .ok ["0000 4150 (ldw r5,r0,12)", "0002 000c", "0004 4160 (ldw r6,r0,14)", "0006 000e", "0008 0856 (add r5,r6)",
      "000a f800 (hlt r0,r0)", "000c 007b", "000e 01c8"] := by decide

/-- Data lines (46_assembly_language R171 to R175): bytes, a string and a reservation, each padded to an even length. -/
theorem test_data_lines :
    [.bytes [1, -56, 3], .text [0x68, 0x69], .reserve 3].map (assembleLine []) =
      [.ok [.pair 1 0xc8, .pair 3 0], .ok [.pair 0x68 0x69, .pair 0 0], .ok [.pair 0 0, .pair 0 0]] := by decide

theorem test_readData :
    [" $1 $-56 $3", " 0x1f 017 -1 main", " [30]", " \"hi;\"", " \"hi\" ; x"].map (fun l => readLine l.toList) =
      [.ok (some (.bytes [1, -56, 3])), .ok (some (.words [.number 31, .number 15, .number (-1), .symbol "main"])),
       .ok (some (.reserve 30)), .error (.badLine " \"hi;\""), .ok (some (.text [0x68, 0x69]))] := by decide

/-- Refused lines and sources (R168, R185; entry 16). -/
theorem test_refused :
    assemble [.words [.number 65536]] = .error (.outOfRange 65536) ∧
    assemble [.bytes [-129]] = .error (.outOfRange (-129)) ∧
    assemble [.label "a", .label "a"] = .error (.duplicateSymbol "a") ∧
    assemble [.instr .beq 0 0 (some (.symbol "x"))] = .error (.undefinedSymbol "x") := by decide

/-- A source that does not assemble has no listing either (R182, U24). -/
theorem test_listing_refused :
    listing [.label "a", .halt, .label "a"] = .error (.duplicateSymbol "a") ∧
    listing [.words [.number 65536]] = .error (.outOfRange 65536) := by decide

/-- Mnemonics, hlt and register names are no references; an instruction line that is not indented is refused (U25; entry
24). -/
theorem test_reserved_names :
    ["hlt", "add", "r3", "sp", "add v0,v1", "mul"].map (fun l => readLine l.toList) =
      [.error (.badLine "hlt"), .error (.badLine "add"), .error (.badLine "r3"), .error (.badLine "sp"),
       .error (.badLine "add v0,v1"), .ok (some (.label "mul"))] ∧
    readLine " add v0,v1,r3".toList = .error (.badLine " add v0,v1,r3") := by decide

/-- The object file of 95_test_vectors 1.1 is read back, and lines with the spaces of 95_test_vectors 1.2 are read too. -/
theorem test_readObject :
    (objectFile addLines).bind readObject =
      .ok [(0, 0x4150), (2, 0x000c), (4, 0x4160), (6, 0x000e), (8, 0x0856), (0x000a, 0xf800), (0x000c, 0x007b),
        (0x000e, 0x01c8)] ∧
    readObject "0000 0950 (add r5, r0, 123)\n0002 007b\n" = .ok [(0, 0x0950), (2, 0x007b)] ∧
    readObject "0000 0950 add" = .error (.badLine "0000 0950 add") ∧
    readObject "0000 0G50" = .error (.badLine "0000 0G50") := by decide

/-- Each word is loaded at its own address (R179); a line outside RAM or at an odd address is not loaded (entry 21). -/
theorem test_loadLines :
    (loadLines simulator.initMem [(0xeffe, 0x1234)]).map (fun m => m.wordAt 0xeffe) = some 0x1234 ∧
    loadLines simulator.initMem [(0xf000, 0x1234)] = none ∧ loadLines simulator.initMem [(0x0001, 0x1234)] = none := by decide

/-- The run of an object file starts with its first instruction at address 0. -/
theorem test_launchObject :
    (match State.launchObject simulator "0000 0950 (add r5, r0, 123)\n0002 007b\n" with
    | some s => nextHas (step s) (has 5 0x007b 4)
    | none => false) = true := by decide

/-- The word of two byte items, as BYTE_ORDER says (R176). -/
theorem test_pair_word :
    (ImageWord.pair 0x12 0xf4).toWord .big = 0x12f4 ∧ (ImageWord.pair 0x12 0xf4).toWord .little = 0xf412 := by decide

/-! ## Idioms (47_programming_conventions R190 to R195) -/

theorem test_push_words : assemble (push 5) = .ok ([0x0bee, 0x0002, 0x485e].map .word) := by decide

theorem test_popAll : popAll [5, 15] =
    [.instr .ldw 15 14 (some (.number 2)), .instr .ldw 5 14 (some (.number 0)),
     .instr .add 14 14 (some (.number 4))] := by decide

theorem test_jump_words : assemble (jump (.number 12345)) = .ok ([0x9100, 0x3039].map .word) := by decide

/-- The idioms of 44_control_transfer R148: `a > b` and `a <= b` have the words of 95_test_vectors section 2.9, and each
loop has the form that its row gives. -/
theorem test_branch_idioms :
    assemble (branchGreater 5 6 (.number 10)) = .ok ([0x8165, 0x000a].map .word) ∧
    assemble (branchLessEqual 5 6 (.number 10)) = .ok ([0x8365, 0x000a].map .word) := by decide

theorem test_loop_idioms :
    assemble (whileTrue "loop" [.instr .add 5 6 none]) = .ok ([0x0856, 0x9100, 0x0000].map .word) ∧
    assemble (whileLess 5 6 "loop" "end" []) = .ok ([0x8356, 0x0008, 0x9100, 0x0000].map .word) ∧
    assemble (doWhileLess 5 6 "loop" "end" [.instr .add 5 6 none]) =
      .ok ([0x0856, 0x8356, 0x000a, 0x9100, 0x0000].map .word) := by decide

/-- R190, R193 and R199: the words of the manual's spellings with or, with sub, and of listing 3.8. -/
theorem test_other_idioms :
    assemble (loadConstantOr 6 (.number 555)) = .ok ([0x0560, 0x022b].map .word) ∧
    negateInto 3 5 = [.instr .xor 3 3 none, .instr .sub 3 5 none] ∧
    assemble (passOnStack [5, 6, 7]) =
      .ok ([0x0bee, 0x0006, 0x497e, 0x0004, 0x496e, 0x0002, 0x495e, 0x0000, 0x091e, 0x0000].map .word) := by decide

/-- White space on both sides of a comma is passed over (entry 28); a carriage return is refused outside a comment
(entry 29). -/
theorem test_blanks_and_line_ends :
    readLine " add v0 , v1,\t0 ".toList = .ok (some (.instr .add 5 6 (some (.number 0)))) ∧
    readSource " hlt\r\n" = .error (.badLine " hlt\r") ∧ readSource " hlt ; x\r\n" = .ok [.halt] := by decide

theorem test_savedBy : savedBy 0 = .nobody ∧ savedBy 4 = .caller ∧ savedBy 5 = .callee ∧ savedBy 15 = .callee := by decide

/-! ## Witnesses: for each statement with hypotheses, states and operands that meet them, at the ends of their ranges -/

/-- The reset state with the given registers. -/
def withRegs (regs : List (RegIdx × Word)) : State := regs.foldl (fun s r => s.setX r.1 r.2) State.reset

/-- A RAM of 16 bytes, the other size that the witnesses use: its last word is at 0x000e, and 0x0010 to 0xefff are unmapped
(20_memory R44). -/
def smallRegs (regs : List (RegIdx × Word)) : State :=
  regs.foldl (fun s r => s.setX r.1 r.2) (State.start ⟨Memory.blank 8, 0x0010⟩)

theorem effAddrR_smallRegs (v : Word) : effAddrR (smallRegs [(2, v)]) 2 = v := by
  simp [effAddrR, smallRegs, x_setX]

theorem effAddrR_withRegs (v : Word) : effAddrR (withRegs [(2, v)]) 2 = v := by
  simp [effAddrR, withRegs, x_setX]

theorem witness_LdwLoadsRamWord :
    (TransferForm .ldwR .ldwI (.ldwR 1 2) 1 (withRegs [(2, 0xeffe)]) 0xeffe 2 ∧ WordInRam (withRegs [(2, 0xeffe)]).mem 0xeffe) ∧
    (TransferForm .ldwR .ldwI (.ldwI 1 2 0xfff0) 1 (withRegs [(2, 0x0010)]) 0x0000 4 ∧
      WordInRam (withRegs [(2, 0x0010)]).mem 0x0000) :=
  ⟨⟨.inl ⟨2, rfl, rfl, rfl⟩, by decide, by decide⟩, ⟨.inr ⟨2, 0xfff0, rfl, rfl, rfl⟩, by decide, by decide⟩⟩

theorem witness_LdwReadsServiceValue :
    (TransferForm .ldwR .ldwI (.ldwR 1 2) 1 (withRegs [(2, 0xf010)]) 0xf010 2 ∧
      (0xf010 : Word) ∈ ([0xf010, 0xf014, 0xf01c] : List Word)) ∧
    (TransferForm .ldwR .ldwI (.ldwI 0 0 0xf01c) 0 State.reset 0xf01c 4 ∧
      (0xf01c : Word) ∈ ([0xf010, 0xf014, 0xf01c] : List Word)) :=
  ⟨⟨.inl ⟨2, rfl, rfl, rfl⟩, by decide⟩, ⟨.inr ⟨0, 0xf01c, rfl, rfl, rfl⟩, by decide⟩⟩

/-- A buffer at 0 takes the first clause when the string typed is shorter than RAM, a buffer at the last byte when it is
empty; a buffer at 0xf000 takes the second clause, whatever is typed. -/
theorem witness_LdwReadsStringIntoBuffer (typed : List Byte) (h : typed.length < 61440) :
    (State.reset.mem.wf = true ∧ TransferForm .ldwR .ldwI (.ldwI 0 0 0xf018) 0 State.reset 0xf018 4 ∧
      (State.reset.x 0).toNat + typed.length < State.reset.mem.size) ∧
    (TransferForm .ldwR .ldwI (.ldwR 1 2) 1 (withRegs [(1, 0xefff), (2, 0xf018)]) 0xf018 2 ∧
      ((withRegs [(1, 0xefff), (2, 0xf018)]).x 1).toNat + ([] : List Byte).length <
        (withRegs [(1, 0xefff), (2, 0xf018)]).mem.size) ∧
    (TransferForm .ldwR .ldwI (.ldwR 1 2) 1 (withRegs [(1, 0xf000), (2, 0xf018)]) 0xf018 2 ∧
      ¬ ((withRegs [(1, 0xf000), (2, 0xf018)]).x 1).toNat + typed.length <
        (withRegs [(1, 0xf000), (2, 0xf018)]).mem.size) := by
  refine ⟨⟨rfl, .inr ⟨0, 0xf018, rfl, rfl, rfl⟩, ?_⟩, ⟨.inl ⟨2, rfl, rfl, rfl⟩, by decide⟩, .inl ⟨2, rfl, rfl, rfl⟩, ?_⟩
  · have e : (State.reset.x 0).toNat = 0 := by decide
    rw [e, show State.reset.mem.size = 61440 from rfl]
    omega
  · have e : ((withRegs [(1, 0xf000), (2, 0xf018)]).x 1).toNat = 61440 := by decide
    rw [e, show (withRegs [(1, 0xf000), (2, 0xf018)]).mem.size = 61440 from rfl]
    omega

theorem witness_LdwFaultsOffTheMap :
    (TransferForm .ldwR .ldwI (.ldwR 1 2) 1 (withRegs [(2, 0x0001)]) 0x0001 2 ∧ (0x0001 : Word).toNat % 2 = 1) ∧
    (TransferForm .ldwR .ldwI (.ldwI 1 0 0xf011) 1 State.reset 0xf011 4 ∧ (0xf011 : Word).toNat % 2 = 1) ∧
    (∀ ea ∈ ([0xf000, 0xf012, 0xf016, 0xf01e, 0xf020, 0xfffe] : List Word),
      TransferForm .ldwR .ldwI (.ldwR 1 2) 1 (withRegs [(2, ea)]) ea 2 ∧ ea.toNat % 2 = 0 ∧
        (withRegs [(2, ea)]).mem.size ≤ ea.toNat ∧ ¬ IsInputAddress ea) := by
  refine ⟨⟨.inl ⟨2, rfl, rfl, rfl⟩, by decide⟩, ⟨.inr ⟨0, 0xf011, rfl, rfl, rfl⟩, by decide⟩, fun ea h => ?_⟩
  refine ⟨.inl ⟨2, rfl, (effAddrR_withRegs ea).symm, rfl⟩, ?_⟩
  unfold IsInputAddress
  fin_cases h <;> decide

theorem witness_LdbLbuLoadRamByte :
    (TransferForm .ldbR .ldbI (.ldbR 1 2) 1 (withRegs [(2, 0xefff)]) 0xefff 2 ∧ ByteInRam (withRegs [(2, 0xefff)]).mem 0xefff) ∧
    (TransferForm .ldbR .ldbI (.ldbI 1 0 0) 1 State.reset 0x0000 4 ∧ ByteInRam State.reset.mem 0x0000) ∧
    (TransferForm .lbuR .lbuI (.lbuR 1 2) 1 (withRegs [(2, 0xefff)]) 0xefff 2 ∧ ByteInRam (withRegs [(2, 0xefff)]).mem 0xefff) ∧
    (TransferForm .lbuR .lbuI (.lbuI 1 0 0) 1 State.reset 0x0000 4 ∧ ByteInRam State.reset.mem 0x0000) := by
  unfold ByteInRam
  exact ⟨⟨.inl ⟨2, rfl, rfl, rfl⟩, by decide⟩, ⟨.inr ⟨0, 0, rfl, rfl, rfl⟩, by decide⟩, ⟨.inl ⟨2, rfl, rfl, rfl⟩, by decide⟩,
    ⟨.inr ⟨0, 0, rfl, rfl, rfl⟩, by decide⟩⟩

theorem witness_LdbLbuFaultOutsideRam :
    (TransferForm .ldbR .ldbI (.ldbR 1 2) 1 (withRegs [(2, 0xf000)]) 0xf000 2 ∧ ¬ ByteInRam (withRegs [(2, 0xf000)]).mem 0xf000) ∧
    (TransferForm .lbuR .lbuI (.lbuI 1 0 0xffff) 1 State.reset 0xffff 4 ∧ ¬ ByteInRam State.reset.mem 0xffff) := by
  unfold ByteInRam
  exact ⟨⟨.inl ⟨2, rfl, rfl, rfl⟩, by decide⟩, ⟨.inr ⟨0, 0xffff, rfl, rfl, rfl⟩, by decide⟩⟩

theorem witness_StwStoresRamWord :
    (State.reset.mem.wf = true ∧ TransferForm .stwR .stwI (.stwI 5 0 0) 5 State.reset 0x0000 4 ∧ WordInRam State.reset.mem 0x0000) ∧
    ((withRegs [(2, 0xeffe)]).mem.wf = true ∧
      TransferForm .stwR .stwI (.stwR 0 2) 0 (withRegs [(2, 0xeffe)]) 0xeffe 2 ∧ WordInRam (withRegs [(2, 0xeffe)]).mem 0xeffe) :=
  ⟨⟨rfl, .inr ⟨0, 0, rfl, rfl, rfl⟩, by decide, by decide⟩, ⟨rfl, .inl ⟨2, rfl, rfl, rfl⟩, by decide, by decide⟩⟩

theorem witness_StwEmitsValue :
    (∀ e ∈ valueServices, TransferForm .stwR .stwI (.stwR 1 2) 1 (withRegs [(2, e.2)]) e.2 2) ∧
    (TransferForm .stwR .stwI (.stwI 1 0 0xf006) 1 State.reset 0xf006 4 ∧ (.writeChar, 0xf006) ∈ valueServices) :=
  ⟨fun e _ => .inl ⟨2, rfl, (effAddrR_withRegs e.2).symm, rfl⟩, .inr ⟨0, 0xf006, rfl, rfl, rfl⟩, by decide⟩

/-- The string "hh" at 0x0020, and the empty string at the last byte of RAM. -/
theorem witness_StwEmitsString :
    (TransferForm .stwR .stwI (.stwI 5 0 0xf008) 5 stringState 0xf008 4 ∧ (.writeStringLn, 0xf008) ∈ stringServices ∧
      (stringState.x 5).toNat + ([0x68, 0x68] : List Byte).length < stringState.mem.size ∧
      (∀ b ∈ ([0x68, 0x68] : List Byte), b ≠ 0) ∧ BytesAt stringState.mem (stringState.x 5).toNat ([0x68, 0x68] ++ [0])) ∧
    (TransferForm .stwR .stwI (.stwR 1 2) 1 (withRegs [(1, 0xefff), (2, 0xf00a)]) 0xf00a 2 ∧
      (.writeString, 0xf00a) ∈ stringServices ∧
      ((withRegs [(1, 0xefff), (2, 0xf00a)]).x 1).toNat + ([] : List Byte).length <
        (withRegs [(1, 0xefff), (2, 0xf00a)]).mem.size ∧
      BytesAt (withRegs [(1, 0xefff), (2, 0xf00a)]).mem 0xefff ([] ++ [0])) := by
  refine ⟨⟨.inr ⟨0, 0xf008, rfl, rfl, rfl⟩, by decide, by decide, by decide, stringState_bytes⟩,
    .inl ⟨2, rfl, rfl, rfl⟩, by decide, by decide, fun i hi => ?_⟩
  have : i = 0 := by simp at hi; exact hi
  subst this
  rfl

/-- Two bytes that are not zero at the end of RAM. -/
def unterminated : State := { withRegs [(5, 0xeffe)] with mem := simulator.initMem.setWordAt 0xeffe 0x0101 }

/-- A string that begins outside RAM, and one of two bytes that runs out of it. -/
theorem witness_StwFaultsOnUnterminatedString :
    (TransferForm .stwR .stwI (.stwI 5 0 0xf008) 5 (withRegs [(5, 0xf000)]) 0xf008 4 ∧
      (.writeStringLn, 0xf008) ∈ stringServices ∧
      ∀ b, ((withRegs [(5, 0xf000)]).x 5).toNat ≤ b → b < (withRegs [(5, 0xf000)]).mem.size →
        (withRegs [(5, 0xf000)]).mem.byteAt b ≠ 0) ∧
    (TransferForm .stwR .stwI (.stwI 5 0 0xf00a) 5 unterminated 0xf00a 4 ∧ (.writeString, 0xf00a) ∈ stringServices ∧
      ∀ b, (unterminated.x 5).toNat ≤ b → b < unterminated.mem.size → unterminated.mem.byteAt b ≠ 0) := by
  refine ⟨⟨.inr ⟨0, 0xf008, rfl, rfl, rfl⟩, by decide, fun b h1 h2 => ?_⟩, .inr ⟨0, 0xf00a, rfl, rfl, rfl⟩, by decide,
    fun b h1 h2 => ?_⟩
  · rw [show ((withRegs [(5, 0xf000)]).x 5).toNat = 61440 by decide] at h1
    rw [show (withRegs [(5, 0xf000)]).mem.size = 61440 from rfl] at h2
    omega
  · have h : ∀ k : Fin 2, unterminated.mem.byteAt (0xeffe + k.val) ≠ 0 := by
      unfold Memory.byteAt
      cases Config.byteOrder <;> decide
    rw [show (unterminated.x 5).toNat = 61438 by decide] at h1
    rw [show unterminated.mem.size = 61440 from rfl] at h2
    have hb := h ⟨b - 0xeffe, by omega⟩
    rwa [show 0xeffe + (b - 0xeffe) = b by omega] at hb

theorem witness_StwFaultsOffTheMap :
    (TransferForm .stwR .stwI (.stwR 1 2) 1 (withRegs [(2, 0xf001)]) 0xf001 2 ∧ (0xf001 : Word).toNat % 2 = 1) ∧
    (∀ ea ∈ ([0xf010, 0xf012, 0xf020, 0xfffe] : List Word),
      TransferForm .stwR .stwI (.stwR 1 2) 1 (withRegs [(2, ea)]) ea 2 ∧ ea.toNat % 2 = 0 ∧
        (withRegs [(2, ea)]).mem.size ≤ ea.toNat ∧ ¬ IsOutputAddress ea) := by
  refine ⟨⟨.inl ⟨2, rfl, rfl, rfl⟩, by decide⟩, fun ea h => ⟨.inl ⟨2, rfl, (effAddrR_withRegs ea).symm, rfl⟩, ?_⟩⟩
  unfold IsOutputAddress
  fin_cases h <;> decide

theorem witness_StbStoresRamByte :
    (State.reset.mem.wf = true ∧ TransferForm .stbR .stbI (.stbI 5 0 0) 5 State.reset 0x0000 4 ∧ ByteInRam State.reset.mem 0x0000) ∧
    ((withRegs [(2, 0xefff)]).mem.wf = true ∧
      TransferForm .stbR .stbI (.stbR 0 2) 0 (withRegs [(2, 0xefff)]) 0xefff 2 ∧ ByteInRam (withRegs [(2, 0xefff)]).mem 0xefff) := by
  unfold ByteInRam
  exact ⟨⟨rfl, .inr ⟨0, 0, rfl, rfl, rfl⟩, by decide⟩, ⟨rfl, .inl ⟨2, rfl, rfl, rfl⟩, by decide⟩⟩

/-- The first clause at 0xf001, 0xf010 and 0xffff, the second at every output address. -/
theorem witness_StbOutsideRamFollowsIoByteAccess :
    (∀ ea ∈ ([0xf001, 0xf010, 0xffff] : List Word),
      TransferForm .stbR .stbI (.stbR 1 2) 1 (withRegs [(2, ea)]) ea 2 ∧ ¬ ByteInRam (withRegs [(2, ea)]).mem ea ∧ ¬ IsOutputAddress ea) ∧
    (∀ e ∈ valueServices ++ stringServices,
      TransferForm .stbR .stbI (.stbR 1 2) 1 (withRegs [(2, e.2)]) e.2 2 ∧ ¬ ByteInRam (withRegs [(2, e.2)]).mem e.2 ∧ IsOutputAddress e.2) := by
  refine ⟨fun ea h => ⟨.inl ⟨2, rfl, (effAddrR_withRegs ea).symm, rfl⟩, ?_⟩, fun e h => ⟨.inl ⟨2, rfl, (effAddrR_withRegs e.2).symm, rfl⟩, ?_⟩⟩
  · unfold ByteInRam IsOutputAddress
    fin_cases h <;> decide
  · unfold ByteInRam IsOutputAddress
    fin_cases h <;> decide

/-- The statements about RAM hold for every MEM_SIZE: with 16 bytes, the last word and the last byte of RAM, and the first
address outside it, 0xefff and the unmapped hole's last word, where the forms fault. -/
theorem witness_smallRam :
    (∀ a ∈ ([0x0000, 0x000e] : List Word),
      TransferForm .ldwR .ldwI (.ldwR 1 2) 1 (smallRegs [(2, a)]) a 2 ∧ WordInRam (smallRegs [(2, a)]).mem a) ∧
    (∀ a ∈ ([0x0000, 0x000f] : List Word),
      TransferForm .stbR .stbI (.stbR 1 2) 1 (smallRegs [(2, a)]) a 2 ∧ ByteInRam (smallRegs [(2, a)]).mem a) ∧
    (∀ a ∈ ([0x0010, 0xeffe, 0xf012] : List Word),
      TransferForm .ldwR .ldwI (.ldwR 1 2) 1 (smallRegs [(2, a)]) a 2 ∧ a.toNat % 2 = 0 ∧
        (smallRegs [(2, a)]).mem.size ≤ a.toNat ∧ ¬ IsInputAddress a ∧ ¬ IsOutputAddress a) ∧
    (∀ a ∈ ([0x0010, 0xefff] : List Word),
      TransferForm .lbuR .lbuI (.lbuR 1 2) 1 (smallRegs [(2, a)]) a 2 ∧ ¬ ByteInRam (smallRegs [(2, a)]).mem a ∧
        ¬ IsOutputAddress a) := by
  refine ⟨fun a h => ⟨.inl ⟨2, rfl, (effAddrR_smallRegs a).symm, rfl⟩, ?_⟩,
    fun a h => ⟨.inl ⟨2, rfl, (effAddrR_smallRegs a).symm, rfl⟩, ?_⟩,
    fun a h => ⟨.inl ⟨2, rfl, (effAddrR_smallRegs a).symm, rfl⟩, ?_⟩,
    fun a h => ⟨.inl ⟨2, rfl, (effAddrR_smallRegs a).symm, rfl⟩, ?_⟩⟩
  · unfold WordInRam; fin_cases h <;> decide
  · unfold ByteInRam; fin_cases h <;> decide
  · unfold IsInputAddress IsOutputAddress; fin_cases h <;> decide
  · unfold ByteInRam IsOutputAddress; fin_cases h <;> decide

theorem witness_DecodeOfEncodeIsIdentity : (Instr.addI 15 0 0xffff).wellFormed = true ∧ (Instr.hlt 15 15).wellFormed = true :=
  ⟨rfl, rfl⟩

theorem witness_EncodeOfDecodeIsIdentity :
    decodeWords 0x0912 0xffff = .ok (.addI 1 2 0xffff) ∧ decodeWords 0x0812 0xffff = .ok (.addR 1 2) := by decide

/-- An instruction of two words at the end of RAM. -/
def tailState : State := placeWords { State.reset with pc := 0xeffc } [0x0912, 0x0003]

/-- At pc = 0 after reset, where RAM holds `and r0,r0`, and with the two words of an instruction at the end of RAM. -/
theorem witness_StepRunsDecodedInstruction :
    (State.reset.halted = false ∧ State.reset.pc.toNat % 2 = 0 ∧
      State.reset.pc.toNat + 2 * (encode (.andR 0 0)).length ≤ State.reset.mem.size ∧ (Instr.andR 0 0).wellFormed = true ∧
      decodeWords (ramWord State.reset.mem 0) (ramWord State.reset.mem 2) = .ok (.andR 0 0)) ∧
    (tailState.halted = false ∧ tailState.pc.toNat % 2 = 0 ∧
      tailState.pc.toNat + 2 * (encode (.addI 1 2 3)).length ≤ tailState.mem.size ∧ (Instr.addI 1 2 3).wellFormed = true ∧
      decodeWords (ramWord tailState.mem 0xeffc) (ramWord tailState.mem 0xeffe) = .ok (.addI 1 2 3)) := by
  refine ⟨⟨rfl, rfl, by decide, rfl, ?_⟩, rfl, rfl, by decide, rfl, ?_⟩
  · rw [ramWord_eq_wordAt _ (by decide), ramWord_eq_wordAt _ (by decide)]
    decide
  · rw [ramWord_eq_wordAt _ (by decide), ramWord_eq_wordAt _ (by decide)]
    decide

/-- A next state, and a fault of each of the three kinds (see test_ldw_odd and its neighbours for the addresses). -/
theorem witness_OnlyDataTransfersFault :
    exec (.ldwR 1 2) (withRegs [(2, 0x0201)]) = .fault (.misalignedAccess 0x0201) ∧
    exec (.lbuR 1 2) (withRegs [(2, 0xf014)]) = .fault (.accessFault 0xf014 .read) ∧
    exec (.stwR 1 2) (withRegs [(2, 0xf010)]) = .fault (.accessFault 0xf010 .write) := ⟨rfl, rfl, rfl⟩

theorem witness_EveryInstructionCountsOneCycle :
    (∃ t, exec (.stwI 5 0 0xf000) State.reset = .next t) ∧ (∃ t, exec (.hlt 0 0) State.reset = .next t) :=
  ⟨⟨_, rfl⟩, ⟨_, rfl⟩⟩

theorem witness_PcAdvancesByLength :
    ∃ t, exec (.addI 1 2 3) { State.reset with pc := 0xfffc } = .next t ∧ isBranch (.addI 1 2 3) = false ∧
      isHalt (.addI 1 2 3) = false ∧ t.pc = 0 := ⟨_, rfl, rfl, rfl, rfl⟩

/-- Each clause: an event, an answer consumed, a halt. -/
theorem witness_HostStateChangesOnlyByItsInstructions :
    (∃ t, exec (.stwI 5 0 0xf000) State.reset = .next t ∧ t.output.length = 1) ∧
    (∃ t, exec (.ldwI 5 0 0xf010) State.reset = .next t ∧ t.inputsRead = 1) ∧
    (∃ t, exec (.hlt 0 0) State.reset = .next t ∧ t.halted = true) :=
  ⟨⟨_, rfl, rfl⟩, ⟨_, rfl, rfl⟩, ⟨_, rfl, rfl⟩⟩

theorem witness_StepKeepsInvariant :
    GoodState State.reset ∧ ∃ t, step (placeWords State.reset [0x4950, 0xf000]) = .next t :=
  ⟨⟨rfl, rfl⟩, ⟨_, rfl⟩⟩

/-- No program and one of 30720 words on the simulator, and one of eight words in a RAM of 16 bytes. -/
theorem witness_LaunchLoadsProgramAtZero :
    (simulator.initMem.wf = true ∧ 2 * ([] : List Word).length ≤ simulator.initMem.size ∧
      2 * (List.replicate 30720 (0 : Word)).length ≤ simulator.initMem.size) ∧
    ((Memory.blank 8).wf = true ∧ 2 * (List.replicate 8 (0 : Word)).length ≤ (Memory.blank 8).size) := by
  refine ⟨⟨rfl, by decide, ?_⟩, rfl, by decide⟩
  rw [List.length_replicate, show simulator.initMem.size = 61440 from rfl]

/-- Two states that differ in the trace and the cycle count: where they step on, and where both stop. -/
theorem witness_StepIgnoresTraceAndCycles :
    SameProgramState State.reset { State.reset with output := [.value .writeInt 7], cycles := 3 } ∧
    (∃ t, step State.reset = .next t) ∧
    SameProgramState { State.reset with halted := true } { State.reset with halted := true, cycles := 3 } ∧
    step { State.reset with halted := true } = .fault .halted :=
  ⟨⟨rfl, rfl, rfl, rfl, rfl⟩, ⟨_, rfl⟩, ⟨rfl, rfl, rfl, rfl, rfl⟩, rfl⟩

theorem witness_StoredWordIsFetched :
    State.reset.mem.wf = true ∧ TransferForm .stwR .stwI (.stwI 14 0 0xeffe) 14 State.reset 0xeffe 4 ∧ WordInRam State.reset.mem 0xeffe ∧
      ∃ t, exec (.stwI 14 0 0xeffe) State.reset = .next t :=
  ⟨rfl, .inr ⟨0, 0xeffe, rfl, rfl, rfl⟩, ⟨by decide, by decide⟩, ⟨_, rfl⟩⟩

/-- It meets the hypotheses of ByteItemsLoadAtConsecutiveAddresses too. -/
theorem witness_MixedWidthFollowsByteOrder :
    simulator.initMem.wf = true ∧ (0 % 2 = 0 ∧ 0 < simulator.initMem.size) ∧
      (0xeffe % 2 = 0 ∧ 0xeffe < simulator.initMem.size) ∧ (0x000e % 2 = 0 ∧ 0x000e < (Memory.blank 8).size) := by decide

theorem witness_ByteItemsLoadAtConsecutiveAddresses :
    (simulator.initMem.setWordAt 0 0x1234).wf = true ∧ 0xeffe % 2 = 0 ∧
      0xeffe < (simulator.initMem.setWordAt 0 0x1234).size := by decide

/-- The second clause: an odd number of byte items after an instruction, a string, a reservation, and no byte at all. -/
theorem witness_ByteItemsLoadAtConsecutiveAddresses_launched :
    simulator.initMem.wf = true ∧
    ∀ line ∈ ([.bytes [1, -56, 3], .text [0x68, 0x69], .reserve 3, .bytes []] : List SourceLine),
      ∃ code s, objectCode ([.halt] ++ line :: [.label "end", .words [.symbol "end"]]) = .ok code ∧
        State.launch simulator code = some s := by
  refine ⟨rfl, fun line h => ?_⟩
  fin_cases h <;> exact ⟨_, _, rfl, rfl⟩

/-- ObjectFileReadsBackAsObjectCode has no hypothesis; both its cases occur. -/
theorem witness_ObjectFileReadsBackAsObjectCode :
    objectCode addLines = .ok [0x4150, 0x000c, 0x4160, 0x000e, 0x0856, 0xf800, 0x007b, 0x01c8] ∧
      objectCode [.label "a", .label "a"] = .error (.duplicateSymbol "a") := by decide

theorem witness_AssembledSizeIsSumOfLines :
    assemble addLines = .ok ([0x4150, 0x000c, 0x4160, 0x000e, 0x0856, 0xf800, 0x007b, 0x01c8].map .word) ∧
      assemble [] = .ok [] := by decide

theorem witness_LabelsAreEven : ("var_b", 14) ∈ symbolTable addLines := by decide

end Sys2Proof.Tests
end

section
/-! PROOFS. The statements that rest on spec/00_scope.md: the invariant that every step keeps, and the loading of a
program at address 0. -/

namespace Sys2Proof.Machine

variable {s t u : State} {m : Memory}

/-! ## What every step keeps -/

/-- What a step from s answers: a state that meets the invariant, with RAM of the size it has in s (00_scope R6). -/
def GoodSuccessor (s t : State) : Prop := GoodState t ∧ t.mem.words = s.mem.words

/-- A state with the memory and the trace of a good successor is one too: registers, pc, input and counters are free. -/
theorem GoodSuccessor.congr (hu : GoodSuccessor s u) (hm : t.mem = u.mem) (ho : t.output = u.output) :
    GoodSuccessor s t := by
  obtain ⟨⟨hwf, hev⟩, hw⟩ := hu
  exact ⟨⟨by rwa [hm], by rwa [ho]⟩, by rwa [hm]⟩

theorem GoodState.goodSuccessor_self (hs : GoodState s) : GoodSuccessor s s := ⟨hs, rfl⟩

/-- A new memory of the same size, in canonical form, beside the old trace. -/
theorem GoodState.goodSuccessor_of_mem (hs : GoodState s) (hwf : t.mem.wf = true) (hw : t.mem.words = s.mem.words)
    (ho : t.output = s.output) : GoodSuccessor s t :=
  ⟨⟨hwf, by rw [ho]; exact hs.2⟩, hw⟩

theorem GoodState.goodSuccessor_emit (hs : GoodState s) {e : OutEvent} (he : eventWf e = true) :
    GoodSuccessor s (s.emit e) :=
  ⟨⟨hs.1, by simp [hs.2, he]⟩, rfl⟩

/-- The event of an output service has the form of the service: a string is read up to its first zero byte
(60_exceptions R226). -/
theorem outputEvent_wf {svc : OutputService} {v : Word} {e : OutEvent} (h : outputEvent s svc v = .ok e) :
    eventWf e = true := by
  obtain ⟨hsvc, rfl⟩ | ⟨hsvc, bytes, hbytes, rfl⟩ := outputEvent_ok h
  · simp [eventWf, hsvc]
  · have hnz : ∀ b ∈ bytes, b ≠ 0 := (stringAt_ok hbytes).2.1
    simpa [eventWf, hsvc] using hnz

theorem performOutput_goodSuccessor (hs : GoodState s) {svc : OutputService} {v : Word}
    (h : performOutput s svc v = .ok u) : GoodSuccessor s u := by
  obtain ⟨e, he, rfl⟩ := performOutput_ok h
  exact hs.goodSuccessor_emit (outputEvent_wf he)

theorem performInput_goodSuccessor (hs : GoodState s) {svc : InputService} {ra : RegIdx} {v : Word}
    (h : performInput s svc ra = .ok (v, u)) : GoodSuccessor s u := by
  obtain ⟨-, ⟨-, rfl⟩ | ⟨-, hfits, rfl⟩⟩ := performInput_ok h
  · exact hs.goodSuccessor_self.congr rfl rfl
  · exact hs.goodSuccessor_of_mem (setBytesAt_wf hs.1 hfits) (setBytesAt_words _ _) rfl

theorem memReadWord_goodSuccessor (hs : GoodState s) {ra : RegIdx} {a v : Word}
    (h : memReadWord s ra a = .ok (v, u)) : GoodSuccessor s u := by
  obtain ⟨-, ⟨-, -, rfl⟩ | ⟨-, svc, -, hin⟩⟩ := memReadWord_ok h
  · exact hs.goodSuccessor_self
  · exact performInput_goodSuccessor hs hin

theorem memWriteWord_goodSuccessor (hs : GoodState s) {a v : Word} (h : memWriteWord s a v = .ok u) :
    GoodSuccessor s u := by
  obtain ⟨heven, ⟨hram, rfl⟩ | ⟨-, svc, -, hout⟩⟩ := memWriteWord_ok h
  · have := s.mem.size_even
    exact hs.goodSuccessor_of_mem (setWordAt_wf hs.1 v (by omega)) rfl rfl
  · exact performOutput_goodSuccessor hs hout

theorem memWriteByte_goodSuccessor (hs : GoodState s) {a : Word} {b : Byte} (h : memWriteByte s a b = .ok u) :
    GoodSuccessor s u := by
  obtain ⟨hram, rfl⟩ | ⟨-, -, svc, -, hout⟩ := memWriteByte_ok h
  · exact hs.goodSuccessor_of_mem (setByteAt_wf hs.1 b hram) rfl rfl
  · exact performOutput_goodSuccessor hs hout

/-- Only loads and stores touch memory or the trace; each of them does so through one access. -/
theorem exec_goodSuccessor (hs : GoodState s) {i : Instr} (h : exec i s = .next t) : GoodSuccessor s t := by
  obtain ⟨ra, v, len, rfl⟩ | ⟨p, rfl⟩ | rfl | ⟨ra, ea, len, v, u, hu, rfl⟩ | ⟨ea, len, v, u, hu, rfl⟩ |
    ⟨ea, len, b, u, hu, rfl⟩ := exec_next h
  · exact hs.goodSuccessor_self.congr (writeResult_mem ..) (writeResult_output ..)
  · exact hs.goodSuccessor_self.congr rfl rfl
  · exact hs.goodSuccessor_self.congr rfl rfl
  · exact (memReadWord_goodSuccessor hs hu).congr (writeResult_mem ..) (writeResult_output ..)
  · exact (memWriteWord_goodSuccessor hs hu).congr rfl rfl
  · exact (memWriteByte_goodSuccessor hs hu).congr rfl rfl

/-- Settles O37: a step that answers a next state executes one instruction. -/
theorem stepKeepsInvariant : Obligations.StepKeepsInvariant := by
  intro s t hs h
  obtain ⟨-, i, -, hexec⟩ := step_next h
  exact exec_goodSuccessor hs hexec

/-! ## Words stored one after another -/

/-- Words that fit into RAM leave every byte outside their addresses alone, for either byte order. -/
theorem byteAt_setWordsAt_of_outside (hm : m.wf = true) {a : Nat} (ha : a % 2 = 0) {words : List Word}
    (hfits : a + 2 * words.length ≤ m.size) {b : Nat} (hb : b < a ∨ a + 2 * words.length ≤ b) :
    (m.setWordsAt a words).byteAt b = m.byteAt b := by
  induction words generalizing m a with
  | nil => rfl
  | cons w rest ih =>
    rw [List.length_cons] at hfits hb
    have hin : a + 1 < m.size := by omega
    rw [Memory.setWordsAt, if_pos hin, ih (setWordAt_wf hm w hin) (by omega) (by rw [setWordAt_size]; omega) (by omega),
      byteAt_setWordAt_of_outside hm w (by omega) ha (by omega)]

/-- The j-th of the words that fit into RAM from the even address a on stands at a + 2j. -/
theorem ramWord_setWordsAt (hm : m.wf = true) {a : Nat} (ha : a % 2 = 0) {words : List Word}
    (hfits : a + 2 * words.length ≤ m.size) {j : Nat} (hj : j < words.length) :
    ramWord (m.setWordsAt a words) (a + 2 * j) = words[j] := by
  induction words generalizing m a j with
  | nil => cases hj
  | cons w rest ih =>
    rw [List.length_cons] at hfits
    have hin : a + 1 < m.size := by omega
    have hwf := setWordAt_wf hm w hin
    have hrest : (a + 2) + 2 * rest.length ≤ (m.setWordAt a w).size := by rw [setWordAt_size]; omega
    rw [Memory.setWordsAt, if_pos hin]
    cases j with
    | zero =>
      have hkept : ∀ b < a + 2, ((m.setWordAt a w).setWordsAt (a + 2) rest).byteAt b = (m.setWordAt a w).byteAt b :=
        fun b hb => byteAt_setWordsAt_of_outside hwf (by omega) hrest (.inl hb)
      calc ramWord ((m.setWordAt a w).setWordsAt (a + 2) rest) a
          = ramWord (m.setWordAt a w) a := by rw [ramWord, hkept a (by omega), hkept (a + 1) (by omega), ramWord]
        _ = (m.setWordAt a w).wordAt a := ramWord_eq_wordAt _ ha
        _ = w := by rw [wordAt_setWordAt hm w (by omega) ha ha, if_pos rfl]
    | succ j =>
      have := ih hwf (by omega) hrest (Nat.lt_of_succ_lt_succ hj)
      rwa [show a + 2 * (j + 1) = a + 2 + 2 * j by omega, List.getElem_cons_succ]

/-! ## The start of a run -/

/-- The registers at the start: SP_RESET in r14, 0 in every other (10_state R33). -/
theorem start_x (p : Platform) (k : RegIdx) : (State.start p).x k = if k = 14 then p.spReset else 0 := by
  fin_cases k <;> rfl

/-- A program that fits is launched, from the start state with the program's words in RAM. -/
theorem launch_of_fits {p : Platform} {program : List Word} (h : 2 * program.length ≤ p.initMem.size) :
    State.launch p program = some { State.start p with mem := p.initMem.setWordsAt 0 program } := by
  simp [State.launch, loadProgram, programBytes, h]

/-- Settles O40, by the rules of words stored one after another, from address 0 on. -/
theorem launchLoadsProgramAtZero : Obligations.LaunchLoadsProgramAtZero := by
  intro p program hwf hfits
  have hfits0 : 0 + 2 * program.length ≤ p.initMem.size := by omega
  refine ⟨_, launch_of_fits hfits, ⟨setWordsAt_wf hwf 0 program, rfl⟩, fun j hj => ?_, fun b hb => ?_,
    setWordsAt_words 0 program, start_x p, rfl, rfl, rfl, rfl, rfl⟩
  · simpa using ramWord_setWordsAt hwf rfl hfits0 hj
  · exact byteAt_setWordsAt_of_outside hwf rfl hfits0 (.inr (by omega))

end Sys2Proof.Machine
end

section
/-! PROOFS. The statements that rest on spec/10_state.md: the start state, what an instruction does to pc and to the state
the host sees, and that no step depends on the trace or the cycle count. -/

namespace Sys2Proof.Machine

variable {s t u : State}

/-! ## The form of every instruction -/

/-- An operand is read from the registers and the instruction alone. -/
def ReadsRegs {α : Type} (f : State → α) : Prop := ∀ s t, t.regs = s.regs → f t = f s

theorem readsRegs_sourcesR (ra rb : RegIdx) : ReadsRegs (sourcesR · ra rb) := fun _ _ h => by
  simp only [sourcesR, x_congr h]

theorem readsRegs_sourcesI (rb : RegIdx) (imm : Word) : ReadsRegs (sourcesI · rb imm) := fun _ _ h => by
  simp only [sourcesI, x_congr h]

theorem readsRegs_effAddrR (rb : RegIdx) : ReadsRegs (effAddrR · rb) := fun _ _ h => by
  simp only [effAddrR, x_congr h]

theorem readsRegs_effAddrI (rb : RegIdx) (imm : Word) : ReadsRegs (effAddrI · rb imm) := fun _ _ h => by
  simp only [effAddrI, x_congr h]

theorem readsRegs_branchOperandsR (ra rb : RegIdx) : ReadsRegs (branchOperandsR · ra rb) := fun _ _ h => by
  simp only [branchOperandsR, x_congr h]

theorem readsRegs_branchOperandsI (ra rb : RegIdx) (imm : Word) : ReadsRegs (branchOperandsI · ra rb imm) :=
  fun _ _ h => by simp only [branchOperandsI, x_congr h]

/-- The instruction is ldw (43_data_transfer R130). -/
def IsLdw (i : Instr) : Prop := ∃ ra rb k, i = .ldwR ra rb ∨ i = .ldwI ra rb k

/-- The instruction is stw or stb (43_data_transfer R133, R134). -/
def IsStore (i : Instr) : Prop :=
  ∃ ra rb k, i = .stwR ra rb ∨ i = .stwI ra rb k ∨ i = .stbR ra rb ∨ i = .stbI ra rb k

/-- The seven ways an instruction can run: each shared operation, with the instruction's own length and with operands that
the registers decide. -/
inductive ExecForm (i : Instr) : Prop where
  | computes (op : Word → Word → Word) (src : State → Word × Word) (ra : RegIdx) (hsrc : ReadsRegs src)
      (hexec : ∀ s, exec i s = compute op (src s) ra (lengthWord i) s)
  | branches (c : Cond) (operands : State → BranchOperands) (hops : ReadsRegs operands) (hi : isBranch i = true)
      (hexec : ∀ s, exec i s = branch c (operands s) (lengthWord i) s)
  | loadsWord (ra : RegIdx) (ea : State → Word) (hea : ReadsRegs ea) (hi : IsLdw i)
      (hexec : ∀ s, exec i s = loadWord ra (ea s) (lengthWord i) s)
  | loadsByte (extend : Byte → Word) (ra : RegIdx) (ea : State → Word) (hea : ReadsRegs ea)
      (hexec : ∀ s, exec i s = loadByte extend ra (ea s) (lengthWord i) s)
  | storesWord (ra : RegIdx) (ea : State → Word) (hea : ReadsRegs ea) (hi : IsStore i)
      (hexec : ∀ s, exec i s = storeWord ra (ea s) (lengthWord i) s)
  | storesByte (ra : RegIdx) (ea : State → Word) (hea : ReadsRegs ea) (hi : IsStore i)
      (hexec : ∀ s, exec i s = storeByte ra (ea s) (lengthWord i) s)
  | halts (hi : isHalt i = true) (hexec : ∀ s, exec i s = execHlt s)

theorem execForm (i : Instr) : ExecForm i := by
  cases i with
  | andR ra rb | orR ra rb | xorR ra rb | addR ra rb | subR ra rb | tltR ra rb | tgeR ra rb | tblR ra rb | taeR ra rb
  | teqR ra rb | tneR ra rb | lslR ra rb | lsrR ra rb | asrR ra rb =>
    exact .computes _ _ ra (readsRegs_sourcesR ra rb) fun _ => rfl
  | andI ra rb k | orI ra rb k | xorI ra rb k | addI ra rb k | subI ra rb k | tltI ra rb k | tgeI ra rb k | tblI ra rb k
  | taeI ra rb k | teqI ra rb k | tneI ra rb k | lslI ra rb k | lsrI ra rb k | asrI ra rb k =>
    exact .computes _ _ ra (readsRegs_sourcesI rb k) fun _ => rfl
  | bltR ra rb | bgeR ra rb | bblR ra rb | baeR ra rb | beqR ra rb | bneR ra rb =>
    exact .branches _ _ (readsRegs_branchOperandsR ra rb) rfl fun _ => rfl
  | bltI ra rb k | bgeI ra rb k | bblI ra rb k | baeI ra rb k | beqI ra rb k | bneI ra rb k =>
    exact .branches _ _ (readsRegs_branchOperandsI ra rb k) rfl fun _ => rfl
  | ldwR ra rb => exact .loadsWord ra _ (readsRegs_effAddrR rb) ⟨ra, rb, 0, .inl rfl⟩ fun _ => rfl
  | ldwI ra rb k => exact .loadsWord ra _ (readsRegs_effAddrI rb k) ⟨ra, rb, k, .inr rfl⟩ fun _ => rfl
  | ldbR ra rb | lbuR ra rb => exact .loadsByte _ ra _ (readsRegs_effAddrR rb) fun _ => rfl
  | ldbI ra rb k | lbuI ra rb k => exact .loadsByte _ ra _ (readsRegs_effAddrI rb k) fun _ => rfl
  | stwR ra rb => exact .storesWord ra _ (readsRegs_effAddrR rb) ⟨ra, rb, 0, .inl rfl⟩ fun _ => rfl
  | stwI ra rb k => exact .storesWord ra _ (readsRegs_effAddrI rb k) ⟨ra, rb, k, .inr (.inl rfl)⟩ fun _ => rfl
  | stbR ra rb => exact .storesByte ra _ (readsRegs_effAddrR rb) ⟨ra, rb, 0, .inr (.inr (.inl rfl))⟩ fun _ => rfl
  | stbI ra rb k => exact .storesByte ra _ (readsRegs_effAddrI rb k) ⟨ra, rb, k, .inr (.inr (.inr rfl))⟩ fun _ => rfl
  | hlt ra rb => exact .halts rfl fun _ => rfl

/-! ## What an access does to pc and to the state the host sees -/

/-- A word load leaves the state as it is or consumes one answer of the oracle, and then memory may change too. -/
theorem memReadWord_state {ra : RegIdx} {a v : Word} (h : memReadWord s ra a = .ok (v, u)) :
    u = s ∨ ∃ m, u = { s.consumeInput with mem := m } := by
  obtain ⟨-, ⟨-, -, rfl⟩ | ⟨-, svc, -, hin⟩⟩ := memReadWord_ok h
  · exact .inl rfl
  · obtain ⟨-, ⟨-, rfl⟩ | ⟨-, -, rfl⟩⟩ := performInput_ok hin
    · exact .inr ⟨s.mem, rfl⟩
    · exact .inr ⟨_, rfl⟩

/-- A store changes memory or appends one event to the trace. -/
def Stored (s u : State) : Prop := (∃ m, u = { s with mem := m }) ∨ ∃ e, u = s.emit e

theorem memWriteWord_stored {a v : Word} (h : memWriteWord s a v = .ok u) : Stored s u := by
  obtain ⟨-, ⟨-, hu⟩ | ⟨-, svc, -, hout⟩⟩ := memWriteWord_ok h
  · exact .inl ⟨_, hu⟩
  · obtain ⟨e, -, hu⟩ := performOutput_ok hout
    exact .inr ⟨e, hu⟩

theorem memWriteByte_stored {a : Word} {b : Byte} (h : memWriteByte s a b = .ok u) : Stored s u := by
  obtain ⟨-, hu⟩ | ⟨-, -, svc, -, hout⟩ := memWriteByte_ok h
  · exact .inl ⟨_, hu⟩
  · obtain ⟨e, -, hu⟩ := performOutput_ok hout
    exact .inr ⟨e, hu⟩

/-- Settles O35: the length is added to the pc of the state that the access leaves, and no access sets pc. -/
theorem pcAdvancesByLength : Obligations.PcAdvancesByLength := by
  intro i s t h hnb hnh
  cases execForm i with
  | computes op src ra hsrc hexec =>
    obtain rfl := compute_next ((hexec s).symm.trans h)
    rfl
  | branches c operands hops hi hexec => exact absurd hi (by simp [hnb])
  | loadsWord ra ea hea hi hexec =>
    obtain ⟨v, u, hu, rfl⟩ := loadWord_next ((hexec s).symm.trans h)
    obtain rfl | ⟨m, rfl⟩ := memReadWord_state hu <;> rfl
  | loadsByte extend ra ea hea hexec =>
    obtain ⟨-, rfl⟩ := loadByte_next ((hexec s).symm.trans h)
    rfl
  | storesWord ra ea hea hi hexec =>
    obtain ⟨u, -, rfl⟩ := storeWord_next ((hexec s).symm.trans h)
    rfl
  | storesByte ra ea hea hi hexec =>
    obtain ⟨u, -, rfl⟩ := storeByte_next ((hexec s).symm.trans h)
    rfl
  | halts hi hexec => exact absurd hi (by simp [hnh])

/-- What an instruction may do to the state the host sees (10_state R32). -/
def HostChange (i : Instr) (s t : State) : Prop :=
  (t.output = s.output ∨ (IsStore i ∧ ∃ e, t.output = s.output ++ [e])) ∧
  (t.inputsRead = s.inputsRead ∨ (IsLdw i ∧ t.inputsRead = s.inputsRead + 1)) ∧
  (t.halted = s.halted ∨ (isHalt i = true ∧ t.halted = true))

theorem SameHost.hostChange (h : SameHost s t) (i : Instr) : HostChange i s t := by
  obtain ⟨ho, hr, hh⟩ := h
  exact ⟨.inl ho, .inl hr, .inl hh⟩

theorem sameHost_writeResult (s : State) (ra : RegIdx) (v len : Word) : SameHost s (s.writeResult ra v len) := by
  simp [SameHost]

theorem Stored.hostChange {i : Instr} (hi : IsStore i) (hu : Stored s u) (p : Word) : HostChange i s (u.retire p) := by
  obtain ⟨m, rfl⟩ | ⟨e, rfl⟩ := hu
  · exact SameHost.hostChange ⟨rfl, rfl, rfl⟩ i
  · exact ⟨.inr ⟨hi, e, rfl⟩, .inl rfl, .inl rfl⟩

/-- Settles O36, by the form of the instruction: only the accesses and hlt touch what the host sees. -/
theorem hostStateChangesOnlyByItsInstructions : Obligations.HostStateChangesOnlyByItsInstructions := by
  intro i s t h
  change HostChange i s t
  cases execForm i with
  | computes op src ra hsrc hexec =>
    obtain rfl := compute_next ((hexec s).symm.trans h)
    exact (sameHost_writeResult ..).hostChange i
  | branches c operands hops hi hexec =>
    obtain rfl := branch_next ((hexec s).symm.trans h)
    exact SameHost.hostChange ⟨rfl, rfl, rfl⟩ i
  | loadsWord ra ea hea hi hexec =>
    obtain ⟨v, u, hu, rfl⟩ := loadWord_next ((hexec s).symm.trans h)
    obtain rfl | ⟨m, rfl⟩ := memReadWord_state hu
    · exact (sameHost_writeResult ..).hostChange i
    · exact ⟨.inl (writeResult_output ..), .inr ⟨hi, writeResult_inputsRead ..⟩, .inl (writeResult_halted ..)⟩
  | loadsByte extend ra ea hea hexec =>
    obtain ⟨-, rfl⟩ := loadByte_next ((hexec s).symm.trans h)
    exact (sameHost_writeResult ..).hostChange i
  | storesWord ra ea hea hi hexec =>
    obtain ⟨u, hu, rfl⟩ := storeWord_next ((hexec s).symm.trans h)
    exact (memWriteWord_stored hu).hostChange hi _
  | storesByte ra ea hea hi hexec =>
    obtain ⟨u, hu, rfl⟩ := storeByte_next ((hexec s).symm.trans h)
    exact (memWriteByte_stored hu).hostChange hi _
  | halts hi hexec =>
    cases (hexec s).symm.trans h
    exact ⟨.inl rfl, .inl rfl, .inr ⟨hi, rfl⟩⟩

/-! ## The start state -/

/-- Settles O38: RAM at reset lists no cell, and the trace is empty. -/
theorem resetHasInvariant : Obligations.ResetHasInvariant := ⟨reset_mem_wf, rfl⟩

/-- Settles O39: the start of a run on the simulator's platform. -/
theorem resetIsDebuggerDisplay : Obligations.ResetIsDebuggerDisplay :=
  ⟨start_x simulator, rfl, rfl, rfl, rfl, rfl⟩

/-! ## A past put before the trace and the cycle count

Two states that differ in the trace and the cycle count alone are one state without a past, with two pasts put before it.
Every operation commutes with putting a past there, so a step does. -/

/-- The state with an earlier trace before its own and earlier cycles added to its own. -/
def State.withPast (s : State) (past : List OutEvent) (n : Nat) : State :=
  { s with output := past ++ s.output, cycles := n + s.cycles }

/-- The state as it is when nothing has been recorded yet. -/
def State.forgetPast (s : State) : State := { s with output := [], cycles := 0 }

/-- The outcome with a function applied to its next state. -/
def mapNext (f : State → State) : Result → Result
  | .next s => .next (f s)
  | .fault r => .fault r
  | .refused r => .refused r

theorem mapNext_eq_next {f : State → State} {r : Result} (h : mapNext f r = .next t) : ∃ u, r = .next u ∧ t = f u := by
  cases r with
  | next u => cases h; exact ⟨u, rfl, rfl⟩
  | fault _ => cases h
  | refused _ => cases h

theorem mapNext_eq_fault {f : State → State} {r : Result} {x : Fault} (h : mapNext f r = .fault x) : r = .fault x := by
  cases r with
  | next _ => cases h
  | fault _ => exact h
  | refused _ => cases h

/-- A change g of what an access answers, then the end f' of the instruction, is the end f of it and then a change p of
the next state, where the two agree on every answer. -/
theorem complete_map_commute {α : Type} (r : Except Fault α) {g : α → α} {f f' : α → State} {p : State → State}
    (h : ∀ x, f' (g x) = p (f x)) : complete ((r.map g).map f') = mapNext p (complete (r.map f)) := by
  cases r with
  | ok x => exact congrArg Host.Outcome.next (h x)
  | error _ => rfl

theorem SameProgramState.eq_withPast (h : SameProgramState s t) :
    t = s.forgetPast.withPast t.output t.cycles := by
  rw [State.withPast, State.forgetPast, List.append_nil, Nat.add_zero]
  exact sameProgramState_iff.1 h

theorem sameProgramState_withPast (u : State) (past past' : List OutEvent) (n n' : Nat) :
    SameProgramState (u.withPast past n) (u.withPast past' n') := ⟨rfl, rfl, rfl, rfl, rfl⟩

section
variable (s : State) (past : List OutEvent) (n : Nat)

@[simp] theorem withPast_x (k : RegIdx) : (s.withPast past n).x k = s.x k := rfl

@[simp] theorem withPast_halted : (s.withPast past n).halted = s.halted := rfl

theorem setX_withPast (i : RegIdx) (v : Word) : (s.withPast past n).setX i v = (s.setX i v).withPast past n := by
  unfold State.setX
  split <;> rfl

@[simp] theorem retire_withPast (p : Word) : (s.withPast past n).retire p = (s.retire p).withPast past n := rfl

@[simp] theorem writeResult_withPast (ra : RegIdx) (v len : Word) :
    (s.withPast past n).writeResult ra v len = (s.writeResult ra v len).withPast past n := by
  rw [State.writeResult, setX_withPast]
  rfl

theorem emit_withPast (e : OutEvent) : (s.withPast past n).emit e = (s.emit e).withPast past n := by
  simp only [State.emit, State.withPast, List.append_assoc]

/-! ### Services -/

theorem performOutput_withPast (svc : OutputService) (v : Word) :
    performOutput (s.withPast past n) svc v = (performOutput s svc v).map (·.withPast past n) := by
  change (outputEvent s svc v).map (s.withPast past n).emit = ((outputEvent s svc v).map s.emit).map _
  cases outputEvent s svc v with
  | ok e => exact congrArg Except.ok (emit_withPast s past n e)
  | error _ => rfl

theorem readStringInto_withPast (buf : Word) :
    readStringInto (s.withPast past n) buf = (readStringInto s buf).map (·.withPast past n) := by
  simp only [readStringInto, apply_ite (Except.map _)]
  rfl

theorem performInput_withPast (svc : InputService) (ra : RegIdx) :
    performInput (s.withPast past n) svc ra = (performInput s svc ra).map (Prod.map id (·.withPast past n)) := by
  cases svc with
  | readInt | readChar | readHex => rfl
  | readString =>
    simp only [performInput, withPast_x, readStringInto_withPast]
    cases readStringInto s (s.x ra) <;> rfl

/-! ### Accesses -/

theorem memReadByte_withPast (a : Word) : memReadByte (s.withPast past n) a = memReadByte s a := rfl

theorem fetchInstr_withPast : fetchInstr (s.withPast past n) = fetchInstr s := rfl

theorem memReadWord_withPast (ra : RegIdx) (a : Word) :
    memReadWord (s.withPast past n) ra a = (memReadWord s ra a).map (Prod.map id (·.withPast past n)) := by
  simp only [memReadWord, performInput_withPast, apply_ite (Except.map _)]
  cases inputServiceAt a <;> rfl

theorem memWriteWord_withPast (a v : Word) :
    memWriteWord (s.withPast past n) a v = (memWriteWord s a v).map (·.withPast past n) := by
  simp only [memWriteWord, performOutput_withPast, apply_ite (Except.map _)]
  cases outputServiceAt a <;> rfl

theorem memWriteByte_withPast (a : Word) (b : Byte) :
    memWriteByte (s.withPast past n) a b = (memWriteByte s a b).map (·.withPast past n) := by
  simp only [memWriteByte, storeByteOutsideRam, performOutput_withPast, apply_ite (Except.map _)]
  cases outputServiceAt a <;> cases Config.ioByteAccess <;> rfl

/-! ### Instructions -/

theorem exec_withPast (i : Instr) : exec i (s.withPast past n) = mapNext (·.withPast past n) (exec i s) := by
  have hregs : (s.withPast past n).regs = s.regs := rfl
  cases execForm i with
  | computes op src ra hsrc hexec =>
    rw [hexec, hexec, hsrc s _ hregs, compute, writeResult_withPast]
    rfl
  | branches c operands hops hi hexec =>
    rw [hexec, hexec, hops s _ hregs]
    rfl
  | loadsWord ra ea hea hi hexec =>
    rw [hexec, hexec, hea s _ hregs, loadWord, memReadWord_withPast]
    exact complete_map_commute _ fun r => writeResult_withPast r.2 past n ra r.1 _
  | loadsByte extend ra ea hea hexec =>
    rw [hexec, hexec, hea s _ hregs, loadByte, loadByte, memReadByte_withPast]
    cases memReadByte s (ea s) with
    | ok b => exact congrArg Host.Outcome.next (writeResult_withPast s past n ra (extend b) _)
    | error _ => rfl
  | storesWord ra ea hea hi hexec =>
    rw [hexec, hexec, hea s _ hregs, storeWord, memWriteWord_withPast]
    exact complete_map_commute _ fun u => retire_withPast u past n _
  | storesByte ra ea hea hi hexec =>
    rw [hexec, hexec, hea s _ hregs, storeByte, memWriteByte_withPast]
    exact complete_map_commute _ fun u => retire_withPast u past n _
  | halts hi hexec =>
    rw [hexec, hexec]
    rfl

/-- A step from a state with a past is the step without it, with the past put before what it records. -/
theorem step_withPast : step (s.withPast past n) = mapNext (·.withPast past n) (step s) := by
  simp only [step, withPast_halted, fetchInstr_withPast, exec_withPast]
  cases s.halted with
  | true => rfl
  | false => cases fetchInstr s <;> rfl

end

/-- The step of any state that agrees with s is the step of s without a past, with that state's own past put before it. -/
theorem step_of_sameProgramState (h : SameProgramState s t) :
    step t = mapNext (·.withPast t.output t.cycles) (step s.forgetPast) :=
  (congrArg step h.eq_withPast).trans (step_withPast ..)

/-- Settles O41: both states are one state without a past, each with its own past put before it, and the events are what
the step from that state records. -/
theorem stepIgnoresTraceAndCycles : Obligations.StepIgnoresTraceAndCycles := by
  intro s s' h
  have hstep : step s = mapNext (·.withPast s.output s.cycles) (step s.forgetPast) :=
    step_of_sameProgramState ⟨rfl, rfl, rfl, rfl, rfl⟩
  have hstep' : step s' = mapNext (·.withPast s'.output s'.cycles) (step s.forgetPast) := step_of_sameProgramState h
  refine ⟨fun f hf => ?_, fun t ht => ?_⟩
  · rw [hstep', mapNext_eq_fault (hstep.symm.trans hf)]
    rfl
  · obtain ⟨u, hu, rfl⟩ := mapNext_eq_next (hstep.symm.trans ht)
    refine ⟨u.withPast s'.output s'.cycles, u.output, ?_, sameProgramState_withPast .., rfl, rfl⟩
    rw [hstep', hu]
    rfl

end Sys2Proof.Machine
end

section
/-! PROOFS. The statements that rest on spec/20_memory.md: the checks that a step makes before it runs an instruction, and
what an access of one width sees of an access of another. -/

namespace Sys2Proof.Machine

variable {s t : State} {m : Memory} {w imm a v ea len : Word} {f : Fault} {i : Instr}

/-! ## Fetching a word -/

theorem fetchWord_of_odd (h : a.toNat % 2 = 1) : fetchWord s a = .error (.misalignedFetch a) := by
  rw [fetchWord, if_pos (isOdd_iff.2 h)]

theorem fetchWord_of_outside (heven : a.toNat % 2 = 0) (hout : s.mem.size ≤ a.toNat) :
    fetchWord s a = .error (.accessFault a .fetch) := by
  rw [fetchWord, isOdd_eq_false_iff.2 heven, inRam_eq_false_iff.2 hout]
  rfl

/-- A fetch in RAM gives the word of the two bytes there (20_memory R41, R51). -/
theorem fetchWord_eq_ramWord (h : WordInRam s.mem a) : fetchWord s a = .ok (ramWord s.mem a.toNat) := by
  rw [fetchWord_of_inRam h, ramWord_eq_wordAt _ h.1]

/-- A fetch after a word store: the stored word at its own address, the old outcome at every other, odd addresses and
addresses outside RAM included. -/
theorem fetchWord_of_mem_setWordAt (hm : s.mem.wf = true) (hea : WordInRam s.mem ea)
    (ht : t.mem = s.mem.setWordAt ea.toNat v) (a : Word) :
    fetchWord t a = if a = ea then .ok v else fetchWord s a := by
  obtain ⟨heven, hin⟩ := hea
  by_cases hodd : a.toNat % 2 = 1
  · have hne : a ≠ ea := by rintro rfl; omega
    rw [fetchWord_of_odd hodd, fetchWord_of_odd hodd, if_neg hne]
  have hae : a.toNat % 2 = 0 := by omega
  have hsize : t.mem.size = s.mem.size := by rw [ht, setWordAt_size]
  by_cases hram : a.toNat < s.mem.size
  · rw [fetchWord_of_inRam ⟨hae, hram⟩, fetchWord_of_inRam ⟨hae, by omega⟩, ht,
      wordAt_setWordAt hm v hin heven hae, apply_ite Except.ok]
    simp only [BitVec.toNat_inj]
  · have hne : a ≠ ea := by rintro rfl; omega
    rw [fetchWord_of_outside hae (by omega), fetchWord_of_outside hae (by omega), if_neg hne]

/-! ## Decoding -/

/-- The checks of a first word do not look at the word after it (30_encoding R75). -/
theorem wellFormed_ofWords (w imm : Word) : (Fields.ofWords w imm).wellFormed = !isReserved w := by
  rw [isReserved, Bool.not_not]
  cases h : hasImmediate w <;> simp [Fields.wellFormed, Fields.pairDefined, Fields.haltIsShort, Fields.ofWords, h]

/-- A word that is not reserved decodes, whatever word follows it. -/
theorem decodeWords_of_not_reserved (h : isReserved w = false) (imm : Word) : ∃ i, decodeWords w imm = .ok i := by
  have hsome : (Fields.ofWords w imm).instr.isSome = true := by rw [instr_isSome, wellFormed_ofWords, h]; rfl
  obtain ⟨i, hi⟩ := Option.isSome_iff_exists.1 hsome
  exact ⟨i, by rw [decodeWords, hi]⟩

/-- The word after an instruction of one word is not part of it (30_encoding R74). -/
theorem decodeWords_of_oneWord (h : hasImmediate w = false) (imm imm' : Word) :
    decodeWords w imm = decodeWords w imm' := by
  simp only [decodeWords, Fields.ofWords, h]
  rfl

/-! ## Fetching an instruction -/

theorem fetchInstr_of_fetchFault (hw : fetchWord s s.pc = .error f) : fetchInstr s = .error f := by
  rw [fetchInstr, hw]

theorem fetchInstr_of_reserved (hw : fetchWord s s.pc = .ok w) (hr : isReserved w = true) :
    fetchInstr s = .error (.reservedInstruction s.pc w) := by
  simp only [fetchInstr, hw, hr, if_true]

theorem fetchInstr_of_immediateFault (hw : fetchWord s s.pc = .ok w) (hr : isReserved w = false)
    (hlong : hasImmediate w = true) (himm : fetchWord s (s.pc + 2) = .error f) : fetchInstr s = .error f := by
  simp only [fetchInstr, hw, hr, hlong, himm, if_true, Bool.false_eq_true, if_false]

/-- The word after the first is fetched for an instruction of two words only; what decodes is then fetched. -/
theorem fetchInstr_of_decodes (hw : fetchWord s s.pc = .ok w) (hr : isReserved w = false)
    (himm : hasImmediate w = true → fetchWord s (s.pc + 2) = .ok imm) (hi : decodeWords w imm = .ok i) :
    fetchInstr s = .ok i := by
  cases hlong : hasImmediate w with
  | true => simp only [fetchInstr, hw, hr, hlong, himm hlong, hi, if_true, Bool.false_eq_true, if_false]
  | false => simp only [fetchInstr, hw, hr, hlong, decodeWords_of_oneWord hlong 0 imm, hi, Bool.false_eq_true, if_false]

/-! ## The step -/

theorem step_of_halted (h : s.halted = true) : step s = .fault .halted := by
  rw [step, if_pos h]
  rfl

theorem step_of_fetchInstr_error (hh : ¬ s.halted = true) (h : fetchInstr s = .error f) : step s = .fault f := by
  rw [step, if_neg hh, h]
  rfl

theorem step_of_fetchInstr_ok (hh : ¬ s.halted = true) (h : fetchInstr s = .ok i) : step s = exec i s := by
  rw [step, if_neg hh, h]

/-- The word after a word in RAM has the next even address: no wrap lies between, since RAM ends at 0xf000 or below. -/
theorem toNat_add_two_of_inRam (h : a.toNat < m.size) : (a + 2).toNat = a.toNat + 2 := by
  have := m.size_le
  rw [BitVec.toNat_add, show (2 : Word).toNat = 2 from rfl]
  omega

/-- Settles O32, one branch of the fetch after the other, in the order of the checks. -/
theorem stepChecksInOrder : Obligations.StepChecksInOrder := by
  intro s
  split_ifs with hh hodd hout hr hlong
  · exact step_of_halted hh
  · exact step_of_fetchInstr_error hh (fetchInstr_of_fetchFault (fetchWord_of_odd hodd))
  · exact step_of_fetchInstr_error hh (fetchInstr_of_fetchFault (fetchWord_of_outside (by omega) hout))
  all_goals
    have hw := fetchWord_eq_ramWord (s := s) (a := s.pc) ⟨by omega, by omega⟩
    have hpc := toNat_add_two_of_inRam (m := s.mem) (a := s.pc) (by omega)
  · exact step_of_fetchInstr_error hh (fetchInstr_of_reserved hw hr)
  · obtain ⟨hlong, hout2⟩ := hlong
    have himm := fetchWord_of_outside (a := s.pc + 2) (by omega) hout2
    exact step_of_fetchInstr_error hh (fetchInstr_of_immediateFault hw (Bool.eq_false_iff.2 hr) hlong himm)
  · have hr : isReserved (ramWord s.mem s.pc.toNat) = false := Bool.eq_false_iff.2 hr
    obtain ⟨i, hi⟩ := decodeWords_of_not_reserved hr (ramWord s.mem (s.pc.toNat + 2))
    refine ⟨i, hi, step_of_fetchInstr_ok hh (fetchInstr_of_decodes hw hr (fun h => ?_) hi)⟩
    have hin2 : ¬ s.mem.size ≤ (s.pc + 2).toNat := fun h2 => hlong ⟨h, h2⟩
    rw [fetchWord_eq_ramWord ⟨by omega, by omega⟩, hpc]

/-! ## A stored word is fetched -/

/-- Both forms of stw are the store of x[ra] at the effective address. -/
theorem exec_stw {ra : RegIdx} (h : TransferForm .stwR .stwI i ra s ea len) : exec i s = storeWord ra ea len s := by
  obtain ⟨rb, rfl, rfl, rfl⟩ | ⟨rb, imm, rfl, rfl, rfl⟩ := h <;> rfl

theorem storeWord_of_inRam (h : WordInRam s.mem ea) (ra : RegIdx) (len : Word) :
    storeWord ra ea len s =
      .next (State.retire { s with mem := s.mem.setWordAt ea.toNat (s.x ra) } (s.pc + len)) := by
  rw [storeWord, memWriteWord, isOdd_eq_false_iff.2 h.1, inRam_iff.2 h.2]
  rfl

/-- Settles O42: the store changes one word of memory, and a fetch reads memory alone. -/
theorem storedWordIsFetched : Obligations.StoredWordIsFetched := by
  intro i ra s t ea len hm hform hea h
  rw [exec_stw hform, storeWord_of_inRam hea] at h
  have hmem : t.mem = s.mem.setWordAt ea.toNat (s.x ra) := by cases h; rfl
  have hfetch := fetchWord_of_mem_setWordAt hm hea hmem
  exact ⟨(hfetch ea).trans (if_pos rfl), fun a ha => (hfetch a).trans (if_neg ha)⟩

/-! ## Bytes and words of the same memory -/

theorem byte_append_inj {hi lo hi' lo' : Byte} (h : hi ++ lo = hi' ++ lo') : hi = hi' ∧ lo = lo' :=
  ⟨by simpa using congrArg highByte h, by simpa using congrArg lowByte h⟩

/-- In either order, a word determines the bytes at its lower and its higher address. -/
theorem joinBytes_inj {order : ByteOrder} {b0 b1 c0 c1 : Byte} :
    joinBytes order b0 b1 = joinBytes order c0 c1 ↔ b0 = c0 ∧ b1 = c1 := by
  refine ⟨fun h => ?_, by rintro ⟨rfl, rfl⟩; rfl⟩
  cases order with
  | big => exact byte_append_inj h
  | little => exact (byte_append_inj h).symm

/-- The bytes of a stored word are the two it is joined of, the one at the lower address first. -/
theorem byteAt_setWordAt_joinBytes (hm : m.wf = true) {a : Nat} (heven : a % 2 = 0) (ha : a < m.size) (b0 b1 : Byte) :
    (m.setWordAt a (joinBytes Config.byteOrder b0 b1)).byteAt a = b0 ∧
      (m.setWordAt a (joinBytes Config.byteOrder b0 b1)).byteAt (a + 1) = b1 := by
  rw [← joinBytes_inj (order := Config.byteOrder)]
  change ramWord _ a = _
  rw [ramWord_eq_wordAt _ heven, wordAt_setWordAt hm _ ha heven heven, if_pos rfl]

/-- The word of two stored bytes is made of them. -/
theorem wordAt_setByteAt_setByteAt (hm : m.wf = true) {a : Nat} (heven : a % 2 = 0) (ha : a < m.size) (b0 b1 : Byte) :
    ((m.setByteAt a b0).setByteAt (a + 1) b1).wordAt a = joinBytes Config.byteOrder b0 b1 := by
  have hne : a ≠ a + 1 := by omega
  simp only [← ramWord_eq_wordAt _ heven, ramWord, byteAt_setByteAt (setByteAt_wf hm b0 ha), byteAt_setByteAt hm,
    if_neg hne, if_true]

/-- Two bytes appended are a number in base 256. -/
theorem append_eq_ofNat (hi lo : Byte) : hi ++ lo = BitVec.ofNat 16 (hi.toNat * 256 + lo.toNat) := by
  have := hi.isLt
  have := lo.isLt
  apply BitVec.eq_of_toNat_eq
  rw [BitVec.toNat_append, ← Nat.shiftLeft_add_eq_or_of_lt lo.isLt, Nat.shiftLeft_eq, BitVec.toNat_ofNat]
  omega

/-- A word is made of its quotient and its remainder by 256. -/
theorem ofNat_append_ofNat (v : Word) : BitVec.ofNat 8 (v.toNat / 256) ++ BitVec.ofNat 8 (v.toNat % 256) = v := by
  have := v.isLt
  apply BitVec.eq_of_toNat_eq
  rw [append_eq_ofNat]
  simp only [BitVec.toNat_ofNat]
  omega

/-- Settles O43: a word and the bytes at its two addresses determine each other through BYTE_ORDER, in each of its values. -/
theorem mixedWidthFollowsByteOrder : Obligations.MixedWidthFollowsByteOrder := by
  intro m a v b0 b1 hm heven ha
  have hbytes := byteAt_setWordAt_joinBytes hm heven ha
  rw [wordAt_setByteAt_setByteAt hm heven ha, Prod.ext_iff]
  cases ho : Config.byteOrder with
  | big =>
    have h := hbytes (BitVec.ofNat 8 (v.toNat / 256)) (BitVec.ofNat 8 (v.toNat % 256))
    rw [ho, joinBytes, ofNat_append_ofNat] at h
    exact ⟨h, append_eq_ofNat b0 b1⟩
  | little =>
    have h := hbytes (BitVec.ofNat 8 (v.toNat % 256)) (BitVec.ofNat 8 (v.toNat / 256))
    rw [ho, joinBytes, ofNat_append_ofNat] at h
    exact ⟨h, append_eq_ofNat b1 b0⟩

end Sys2Proof.Machine
end

section
/-! PROOFS. The statements that rest on spec/30_encoding.md: the decoder and the encoder undo each other, and the words
that the decoder refuses are those of no instruction. -/

namespace Sys2Proof.Machine

variable {w imm : Word} {i : Instr}

/-! ## What the decoder answers -/

/-- A word decodes to the one instruction that has its fields. -/
theorem decodeWords_eq_ok_iff : decodeWords w imm = .ok i ↔ i.fields = Fields.ofWords w imm := by
  constructor
  · intro h
    cases hi : (Fields.ofWords w imm).instr with
    | some j =>
      rw [decodeWords, hi] at h
      cases h
      exact fields_of_instr hi
    | none =>
      rw [decodeWords, hi] at h
      cases h
  · intro h
    rw [decodeWords, ← h, instr_fields]

/-- What does not decode is refused by its first word, whatever word follows it. -/
theorem decodeWords_of_reserved (h : isReserved w = true) (imm : Word) : decodeWords w imm = .error (.reserved w) := by
  have hnone : (Fields.ofWords w imm).instr = none := by
    rw [← Option.not_isSome_iff_eq_none, instr_isSome, wellFormed_ofWords, h]
    decide
  rw [decodeWords, hnone]

theorem decodeWords_eq_reserved_iff : decodeWords w imm = .error (.reserved w) ↔ isReserved w = true := by
  refine ⟨fun h => ?_, fun h => decodeWords_of_reserved h imm⟩
  by_contra hr
  obtain ⟨i, hi⟩ := decodeWords_of_not_reserved (Bool.eq_false_iff.2 hr) imm
  rw [hi] at h
  cases h

/-! ## Decoding the words of an instruction -/

theorem decodeWords_headWord (i : Instr) : decodeWords i.fields.headWord (i.fields.imm.getD 0) = .ok i :=
  decodeWords_eq_ok_iff.2 (ofWords_headWord i.fields).symm

/-- The first word of a well-formed instruction passes the check that is made before the immediate is asked for. -/
theorem isReserved_headWord (h : i.wellFormed = true) : isReserved i.fields.headWord = false := by
  rw [Instr.wellFormed, ← ofWords_headWord i.fields, wellFormed_ofWords, Bool.not_eq_true'] at h
  exact h

theorem decode_of_oneWord (hr : isReserved w = false) (hshort : hasImmediate w = false) (rest : List Byte) :
    decode (cellBytes w ++ rest) = decodeWords w 0 := by
  simp [cellBytes, decode, bytes_append, hr, hshort]

theorem decode_of_twoWords (hr : isReserved w = false) (hlong : hasImmediate w = true) (imm : Word) (rest : List Byte) :
    decode (cellBytes w ++ (cellBytes imm ++ rest)) = decodeWords w imm := by
  simp [cellBytes, decode, bytes_append, hr, hlong]

/-- The bytes of an instruction are those of its instruction word, then those of its immediate, if it has one. -/
theorem encodeBytes_append (i : Instr) (rest : List Byte) :
    encodeBytes i ++ rest = cellBytes i.fields.headWord ++ (i.fields.imm.toList.flatMap cellBytes ++ rest) := by
  rw [encodeBytes, encode, List.flatMap_cons, List.append_assoc]

/-- Settles O27, by the form of the instruction: bit 8 of its first word says whether the immediate word is read. -/
theorem decodeOfEncodeIsIdentity : Obligations.DecodeOfEncodeIsIdentity := by
  intro i rest h
  have hr := isReserved_headWord h
  have hlen := hasImmediate_headWord i.fields
  have hdec := decodeWords_headWord i
  rw [encodeBytes_append]
  cases himm : i.fields.imm with
  | none =>
    rw [himm] at hlen hdec
    exact (decode_of_oneWord hr hlen _).trans hdec
  | some k =>
    rw [himm] at hlen hdec
    rw [Option.toList_some, List.flatMap_singleton]
    exact (decode_of_twoWords hr hlen k rest).trans hdec

/-! ## The fields as numbers -/

/-- Opcode is the quotient by 8192 (30_encoding R71). -/
theorem opcodeOf_toNat (w : Word) : (opcodeOf w).toNat = w.toNat / 8192 := by
  have := w.isLt
  rw [opcodeOf, BitVec.extractLsb'_toNat, Nat.shiftRight_eq_div_pow]
  omega

/-- Opcode 2 is the quotient by 512, modulo 16 (30_encoding R71). -/
theorem opcode2Of_toNat (w : Word) : (opcode2Of w).toNat = w.toNat / 512 % 16 := by
  rw [opcode2Of, BitVec.extractLsb'_toNat, Nat.shiftRight_eq_div_pow]

/-- Imm is the parity of the quotient by 256 (30_encoding R71). -/
theorem hasImmediate_iff : hasImmediate w = true ↔ w.toNat / 256 % 2 = 1 := by
  rw [hasImmediate, BitVec.getLsbD, Nat.testBit_eq_decide_div_mod_eq, decide_eq_true_eq]

/-- Settles O28: the instruction has the fields of the word, and the word made of them is that word. -/
theorem encodeOfDecodeIsIdentity : Obligations.EncodeOfDecodeIsIdentity := by
  intro w imm i h
  rw [encode, decodeWords_eq_ok_iff.1 h, headWord_ofWords, Fields.ofWords]
  simp only [← hasImmediate_iff]
  cases hasImmediate w <;> rfl

/-! ## The reserved words -/

/-- The pairs of Opcode and Opcode 2 that the opcode map leaves free, in the order of 30_encoding R80. -/
def FreePair (op op2 : Nat) : Prop :=
  (op = 3 ∨ op = 6) ∨
  (op = 0 ∧ (op2 = 1 ∨ 6 ≤ op2)) ∨
  (op = 1 ∧ op2 ≠ 8 ∧ op2 ≠ 10 ∧ op2 ≠ 11) ∨
  (op = 2 ∧ (op2 = 1 ∨ op2 = 5 ∨ 7 ≤ op2)) ∨
  ((op = 4 ∨ op = 5) ∧ (op2 = 2 ∨ op2 = 3 ∨ op2 = 6 ∨ op2 = 7 ∨ 10 ≤ op2)) ∨
  (op = 7 ∧ op2 ≠ 12)

theorem definedPairs_contains_eq_false_iff (op : BitVec 3) (op2 : BitVec 4) :
    definedPairs.contains (op, op2) = false ↔ FreePair op.toNat op2.toNat := by
  unfold FreePair
  revert op op2
  decide

/-- The second check refuses hlt's pair with an immediate, and nothing else (30_encoding R82). -/
theorem haltIsShort_eq_false_iff (f : Fields) :
    f.haltIsShort = false ↔ f.opcode.toNat = 7 ∧ f.opcode2.toNat = 12 ∧ f.imm.isSome = true := by
  simp [Fields.haltIsShort, ← BitVec.toNat_inj, and_assoc]

/-- A word is reserved by its pair, or as hlt with bit 8 set (30_encoding R80, R82). -/
theorem isReserved_iff (w : Word) :
    isReserved w = true ↔
      FreePair (w.toNat / 8192) (w.toNat / 512 % 16) ∨
        (w.toNat / 8192 = 7 ∧ w.toNat / 512 % 16 = 12 ∧ w.toNat / 256 % 2 = 1) := by
  have hsome : (Fields.ofWords w 0).imm.isSome = hasImmediate w := by
    cases h : hasImmediate w <;> simp [Fields.ofWords, h]
  rw [isReserved, Bool.not_eq_true', Fields.wellFormed, Bool.and_eq_false_iff, haltIsShort_eq_false_iff, hsome,
    hasImmediate_iff, Fields.pairDefined, definedPairs_contains_eq_false_iff]
  simp only [Fields.ofWords, opcodeOf_toNat, opcode2Of_toNat]

/-- Settles O29: the two checks refuse the free pairs and hlt with bit 8 set, and the decoder answers by them. -/
theorem reservedWordsAreExactlyTheListed : Obligations.ReservedWordsAreExactlyTheListed := by
  intro w imm
  refine ⟨(isReserved_iff w).trans ?_, decodeWords_eq_reserved_iff⟩
  have hpair7 {op op2 bit : Nat} :
      op = 7 ∧ (op2 ≠ 12 ∨ bit = 1) ↔ (op = 7 ∧ op2 ≠ 12) ∨ (op = 7 ∧ op2 = 12 ∧ bit = 1) := by omega
  simp only [FreePair, hpair7, or_assoc]

/-! ## Words of the spec -/

/-- Settles O30, word by word. -/
theorem specWordsDecode : Obligations.SpecWordsDecode :=
  ⟨rfl, rfl, rfl, rfl, rfl, rfl, rfl⟩

end Sys2Proof.Machine
end

section
/-! PROOFS. The statements that rest on spec/40_logic_arithmetic.md: what the logic and arithmetic instructions compute,
and that only the accesses to memory can fault. -/

namespace Sys2Proof.Machine

variable {s : State} {i : Instr} {ra : RegIdx} {a v : Word} {b : Byte} {f : Fault}

/-! ## The words of both forms -/

/-- The word made of fields as a number, with 1 for a present immediate in the place of bit 8 (30_encoding R71). -/
theorem headWord_eq_codeWord (g : Fields) :
    g.headWord =
      codeWord (8192 * g.opcode.toNat + 512 * g.opcode2.toNat + 0x0100 * g.imm.isSome.toNat) g.ra g.rb := by
  have hra : (BitVec.ofFin g.ra : BitVec 4).toNat = g.ra.val := rfl
  have hrb : (BitVec.ofFin g.rb : BitVec 4).toNat = g.rb.val := rfl
  have hbit : g.imm.isSome.toNat < 2 := Bool.toNat_lt _
  have := g.opcode.isLt
  have := g.opcode2.isLt
  have := g.ra.isLt
  have := g.rb.isLt
  apply BitVec.eq_of_toNat_eq
  simp only [Fields.headWord, codeWord, BitVec.toNat_append, BitVec.toNat_ofBool, BitVec.toNat_ofNat, hra, hrb]
  rw [← Nat.shiftLeft_add_eq_or_of_lt (by omega), ← Nat.shiftLeft_add_eq_or_of_lt (by omega),
    ← Nat.shiftLeft_add_eq_or_of_lt (by omega), ← Nat.shiftLeft_add_eq_or_of_lt (by omega)]
  simp only [Nat.shiftLeft_eq]
  omega

/-- Two forms of one row of the opcode map have the words that the row's pair gives (30_encoding R78, R83). -/
theorem hasWords_of_fields {regular : RegIdx → RegIdx → Instr} {immediate : RegIdx → RegIdx → Word → Instr} {base : Nat}
    (op : BitVec 3) (op2 : BitVec 4) (hbase : 8192 * op.toNat + 512 * op2.toNat = base)
    (hregular : ∀ ra rb, (regular ra rb).fields = ⟨op, op2, ra, rb, none⟩)
    (himmediate : ∀ ra rb imm, (immediate ra rb imm).fields = ⟨op, op2, ra, rb, some imm⟩) :
    HasWords regular immediate base := by
  subst hbase
  intro ra rb imm
  rw [encode, encode, headWord_eq_codeWord, headWord_eq_codeWord, hregular, himmediate]
  exact ⟨rfl, rfl⟩

/-! ## The computing classes -/

theorem computes_writeResult (s : State) (ra : RegIdx) (v len : Word) :
    Computes s (s.writeResult ra v len) ra v (s.pc + len) :=
  ⟨fun k => writeResult_x s k ra v len, rfl, sameRam_of_mem_eq (writeResult_mem ..), sameHost_writeResult ..⟩

/-- An instruction whose two forms both end in `compute` with the operation op computes any op' that is the same function
of the two sources. -/
theorem computesAs_of_compute {regular : RegIdx → RegIdx → Instr} {immediate : RegIdx → RegIdx → Word → Instr}
    {base : Nat} {op op' : Word → Word → Word} (hwords : HasWords regular immediate base)
    (hregular : ∀ ra rb s, exec (regular ra rb) s = compute op (sourcesR s ra rb) ra 2 s)
    (himmediate : ∀ ra rb imm s, exec (immediate ra rb imm) s = compute op (sourcesI s rb imm) ra 4 s)
    (hop : ∀ a b, op a b = op' a b) : ComputesAs regular immediate base op' := by
  obtain rfl : op = op' := funext₂ hop
  intro ra rb imm s
  obtain ⟨hwordR, hwordsI⟩ := hwords ra rb imm
  exact ⟨hwordR, hwordsI, ⟨_, hregular ra rb s, computes_writeResult ..⟩,
    ⟨_, himmediate ra rb imm s, computes_writeResult ..⟩⟩

/-- Settles O1: the model computes with the same bitwise operations. -/
theorem andOrXorComputeBitwise : Obligations.AndOrXorComputeBitwise := by
  have hand : HasWords .andR .andI 0x0000 := hasWords_of_fields 0b000 0b0000 rfl (fun _ _ => rfl) (fun _ _ _ => rfl)
  have hor : HasWords .orR .orI 0x0400 := hasWords_of_fields 0b000 0b0010 rfl (fun _ _ => rfl) (fun _ _ _ => rfl)
  have hxor : HasWords .xorR .xorI 0x0600 := hasWords_of_fields 0b000 0b0011 rfl (fun _ _ => rfl) (fun _ _ _ => rfl)
  exact ⟨computesAs_of_compute hand (fun _ _ _ => rfl) (fun _ _ _ _ => rfl) fun _ _ => rfl,
    computesAs_of_compute hor (fun _ _ _ => rfl) (fun _ _ _ _ => rfl) fun _ _ => rfl,
    computesAs_of_compute hxor (fun _ _ _ => rfl) (fun _ _ _ _ => rfl) fun _ _ => rfl⟩

theorem add_eq_ofNat_sum (a b : Word) : a + b = BitVec.ofNat 16 ((a.toNat + b.toNat) % 65536) := by
  apply BitVec.eq_of_toNat_eq
  rw [BitVec.toNat_add, BitVec.toNat_ofNat, Nat.mod_mod]

/-- The wrapped difference of words is the difference of their numbers modulo 2^16, below 0 too (decision D8). -/
theorem sub_eq_ofInt_difference (a b : Word) :
    a - b = BitVec.ofInt 16 (((a.toNat : Int) - (b.toNat : Int)) % 65536) := by
  apply BitVec.eq_of_toNat_eq
  rw [BitVec.toNat_sub, BitVec.toNat_ofInt]
  omega

/-- Settles O2: the machine's operations on words are those on numbers modulo 2^16. -/
theorem addSubComputeModulo65536 : Obligations.AddSubComputeModulo65536 := by
  have hadd : HasWords .addR .addI 0x0800 := hasWords_of_fields 0b000 0b0100 rfl (fun _ _ => rfl) (fun _ _ _ => rfl)
  have hsub : HasWords .subR .subI 0x0a00 := hasWords_of_fields 0b000 0b0101 rfl (fun _ _ => rfl) (fun _ _ _ => rfl)
  exact ⟨computesAs_of_compute hadd (fun _ _ _ => rfl) (fun _ _ _ _ => rfl) add_eq_ofNat_sum,
    computesAs_of_compute hsub (fun _ _ _ => rfl) (fun _ _ _ _ => rfl) sub_eq_ofInt_difference⟩

/-! ## The faults of an access -/

/-- The faults that an access of a load or a store may raise (20_memory R45, R46; decisions D2, D7, D16). -/
def IsDataFault (f : Fault) : Prop := ∃ a, f = .misalignedAccess a ∨ f = .accessFault a .read ∨ f = .accessFault a .write

theorem isDataFault_misaligned (a : Word) : IsDataFault (.misalignedAccess a) := ⟨a, .inl rfl⟩

theorem isDataFault_read (a : Word) : IsDataFault (.accessFault a .read) := ⟨a, .inr (.inl rfl)⟩

theorem isDataFault_write (a : Word) : IsDataFault (.accessFault a .write) := ⟨a, .inr (.inr rfl)⟩

theorem map_error {α β : Type} {r : Except Fault α} {g : α → β} (h : r.map g = .error f) : r = .error f := by
  cases r with
  | ok _ => cases h
  | error _ => cases h; rfl

theorem performOutput_error {svc : OutputService} (h : performOutput s svc v = .error f) : IsDataFault f := by
  have he := map_error h
  unfold outputEvent at he
  split at he
  · split at he
    · cases he
    · cases he; exact isDataFault_read _
  · cases he

theorem readStringInto_error (h : readStringInto s a = .error f) : IsDataFault f := by
  unfold readStringInto at h
  split at h
  · cases h
  · cases h; exact isDataFault_write _

/-- Of the input services only read string can fault (60_exceptions R229). -/
theorem performInput_error {svc : InputService} (h : performInput s svc ra = .error f) : IsDataFault f := by
  cases svc with
  | readString => exact readStringInto_error (map_error h)
  | readInt | readChar | readHex => cases h

theorem memReadByte_error (h : memReadByte s a = .error f) : IsDataFault f := by
  unfold memReadByte at h
  split at h
  · cases h
  · cases h; exact isDataFault_read a

theorem memReadWord_error (h : memReadWord s ra a = .error f) : IsDataFault f := by
  unfold memReadWord at h
  split at h
  · cases h; exact isDataFault_misaligned a
  split at h
  · cases h
  split at h
  · exact performInput_error h
  · cases h; exact isDataFault_read a

theorem memWriteWord_error (h : memWriteWord s a v = .error f) : IsDataFault f := by
  unfold memWriteWord at h
  split at h
  · cases h; exact isDataFault_misaligned a
  split at h
  · cases h
  split at h
  · exact performOutput_error h
  · cases h; exact isDataFault_write a

theorem memWriteByte_error (h : memWriteByte s a b = .error f) : IsDataFault f := by
  unfold memWriteByte at h
  split at h
  · cases h
  unfold storeByteOutsideRam at h
  split at h
  · exact performOutput_error h
  · cases h; exact isDataFault_write a

/-! ## The faults of an instruction -/

/-- Every instruction outside the class of the data transfers completes in every state. -/
theorem exec_next_of_not_dataTransfer (h : isDataTransfer i = false) (s : State) : ∃ t, exec i s = .next t := by
  cases i with
  | ldwR | ldwI | ldbR | ldbI | lbuR | lbuI | stwR | stwI | stbR | stbI => cases h
  | _ => exact ⟨_, rfl⟩

theorem isDataTransfer_of_fault (h : exec i s = .fault f) : isDataTransfer i = true := by
  by_contra hi
  obtain ⟨t, ht⟩ := exec_next_of_not_dataTransfer (Bool.eq_false_iff.2 hi) s
  cases ht.symm.trans h

/-- The access r of an instruction, then the change g that ends it, completes or stops with the fault of the access. -/
theorem complete_map_cases {α : Type} {r : Except Fault α} (g : α → State) (hr : ∀ f, r = .error f → IsDataFault f) :
    (∃ t, complete (r.map g) = .next t) ∨ ∃ f, IsDataFault f ∧ complete (r.map g) = .fault f := by
  cases r with
  | ok x => exact .inl ⟨g x, rfl⟩
  | error f => exact .inr ⟨f, hr f rfl, rfl⟩

/-- An instruction completes or stops with the fault of an access; it is never refused. -/
theorem exec_cases (i : Instr) (s : State) :
    (∃ t, exec i s = .next t) ∨ ∃ f, IsDataFault f ∧ exec i s = .fault f := by
  cases execForm i with
  | computes op src ra hsrc hexec => exact .inl ⟨_, hexec s⟩
  | branches c operands hops hi hexec => exact .inl ⟨_, hexec s⟩
  | loadsWord ra ea hea hi hexec =>
    rw [hexec]
    exact complete_map_cases _ fun _ => memReadWord_error
  | loadsByte extend ra ea hea hexec =>
    rw [hexec]
    exact complete_map_cases _ fun _ => memReadByte_error
  | storesWord ra ea hea hi hexec =>
    rw [hexec]
    exact complete_map_cases _ fun _ => memWriteWord_error
  | storesByte ra ea hea hi hexec =>
    rw [hexec]
    exact complete_map_cases _ fun _ => memWriteByte_error
  | halts hi hexec => exact .inl ⟨_, hexec s⟩

/-- Settles O33: a fault comes from the access of a load or a store, and the other classes complete in every state. -/
theorem onlyDataTransfersFault : Obligations.OnlyDataTransfersFault := by
  intro i s
  obtain ⟨t, ht⟩ | ⟨f, hf, hexec⟩ := exec_cases i s
  · rw [ht]
    exact ⟨nofun, nofun⟩
  · refine ⟨fun r h => (nomatch hexec.symm.trans h), fun f' h => ?_⟩
    cases hexec.symm.trans h
    exact ⟨isDataTransfer_of_fault hexec, hf⟩

end Sys2Proof.Machine
end

section
/-! PROOFS. The statements that rest on spec/41_comparison.md: what the comparison instructions compute. -/

namespace Sys2Proof.Machine

/-! ## The six conditions -/

variable (a b : Word)

theorem lessThan_holds_iff : Cond.lessThan.holds a b = true ↔ a.toInt < b.toInt := decide_eq_true_iff

theorem greaterEqual_holds_iff : Cond.greaterEqual.holds a b = true ↔ a.toInt ≥ b.toInt := decide_eq_true_iff

theorem below_holds_iff : Cond.below.holds a b = true ↔ a.toNat < b.toNat := decide_eq_true_iff

theorem aboveEqual_holds_iff : Cond.aboveEqual.holds a b = true ↔ a.toNat ≥ b.toNat := decide_eq_true_iff

theorem equal_holds_iff : Cond.equal.holds a b = true ↔ a = b := decide_eq_true_iff

theorem notEqual_holds_iff : Cond.notEqual.holds a b = true ↔ a ≠ b := decide_eq_true_iff

/-! ## The comparison instructions -/

/-- An instruction whose two forms both end in `compute` with the truth value of a condition writes 1 where the relation
that the condition tests holds of its two sources, and 0 elsewhere (41_comparison R116). -/
theorem computesAs_of_condition {regular : RegIdx → RegIdx → Instr} {immediate : RegIdx → RegIdx → Word → Instr}
    {base : Nat} {c : Cond} {rel : Word → Word → Prop} [DecidableRel rel] (hwords : HasWords regular immediate base)
    (hregular : ∀ ra rb s, exec (regular ra rb) s = compute c.word (sourcesR s ra rb) ra 2 s)
    (himmediate : ∀ ra rb imm s, exec (immediate ra rb imm) s = compute c.word (sourcesI s rb imm) ra 4 s)
    (hrel : ∀ a b, c.holds a b = true ↔ rel a b) :
    ComputesAs regular immediate base (fun a b => if rel a b then 1 else 0) :=
  computesAs_of_compute hwords hregular himmediate fun a b => if_congr (hrel a b) rfl rfl

/-- Settles O3: the conditions of tlt and tge order the two's-complement values. -/
theorem tltTgeCompareSigned : Obligations.TltTgeCompareSigned := by
  have htlt : HasWords .tltR .tltI 0xa000 := hasWords_of_fields 0b101 0b0000 rfl (fun _ _ => rfl) (fun _ _ _ => rfl)
  have htge : HasWords .tgeR .tgeI 0xa200 := hasWords_of_fields 0b101 0b0001 rfl (fun _ _ => rfl) (fun _ _ _ => rfl)
  exact ⟨computesAs_of_condition htlt (fun _ _ _ => rfl) (fun _ _ _ _ => rfl) lessThan_holds_iff,
    computesAs_of_condition htge (fun _ _ _ => rfl) (fun _ _ _ _ => rfl) greaterEqual_holds_iff⟩

/-- Settles O4: the conditions of tbl and tae order the unsigned values. -/
theorem tblTaeCompareUnsigned : Obligations.TblTaeCompareUnsigned := by
  have htbl : HasWords .tblR .tblI 0xa800 := hasWords_of_fields 0b101 0b0100 rfl (fun _ _ => rfl) (fun _ _ _ => rfl)
  have htae : HasWords .taeR .taeI 0xaa00 := hasWords_of_fields 0b101 0b0101 rfl (fun _ _ => rfl) (fun _ _ _ => rfl)
  exact ⟨computesAs_of_condition htbl (fun _ _ _ => rfl) (fun _ _ _ _ => rfl) below_holds_iff,
    computesAs_of_condition htae (fun _ _ _ => rfl) (fun _ _ _ _ => rfl) aboveEqual_holds_iff⟩

/-- Settles O5: the conditions of teq and tne compare the whole words; tne writes 1 where the words are not equal. -/
theorem teqTneCompareAllBits : Obligations.TeqTneCompareAllBits := by
  have hteq : HasWords .teqR .teqI 0xb000 := hasWords_of_fields 0b101 0b1000 rfl (fun _ _ => rfl) (fun _ _ _ => rfl)
  have htne : HasWords .tneR .tneI 0xb200 := hasWords_of_fields 0b101 0b1001 rfl (fun _ _ => rfl) (fun _ _ _ => rfl)
  have hnotEqual : ComputesAs .tneR .tneI 0xb200 (fun a b => if a ≠ b then 1 else 0) :=
    computesAs_of_condition htne (fun _ _ _ => rfl) (fun _ _ _ _ => rfl) notEqual_holds_iff
  simp only [ne_eq, ite_not] at hnotEqual
  exact ⟨computesAs_of_condition hteq (fun _ _ _ => rfl) (fun _ _ _ _ => rfl) equal_holds_iff, hnotEqual⟩

end Sys2Proof.Machine
end

section
/-! PROOFS. The statements that rest on spec/42_shift.md: what the shift instructions compute. -/

namespace Sys2Proof.Machine

/-! ## The shifts of a word as arithmetic -/

section
variable (v : Word) (k : Nat)

theorem shiftLeft_eq_ofNat_product : v <<< k = BitVec.ofNat 16 (v.toNat * 2 ^ k % 65536) := by
  apply BitVec.eq_of_toNat_eq
  rw [BitVec.toNat_shiftLeft, BitVec.toNat_ofNat, Nat.mod_mod, Nat.shiftLeft_eq]

theorem ushiftRight_eq_ofNat_quotient : v >>> k = BitVec.ofNat 16 (v.toNat / 2 ^ k) := by
  have hquotient : v.toNat / 2 ^ k < 2 ^ 16 := (Nat.div_le_self ..).trans_lt v.isLt
  apply BitVec.eq_of_toNat_eq
  rw [BitVec.toNat_ushiftRight, BitVec.toNat_ofNat, Nat.mod_eq_of_lt hquotient, Nat.shiftRight_eq_div_pow]

/-- The arithmetic shift rounds toward minus infinity, below 0 too. -/
theorem sshiftRight_eq_ofInt_floor : v.sshiftRight k = BitVec.ofInt 16 (Int.fdiv v.toInt (2 ^ k)) := by
  have hpow : (0 : Int) ≤ 2 ^ k := Int.pow_nonneg (by decide)
  rw [BitVec.sshiftRight, Int.shiftRight_eq_div_pow, Int.fdiv_eq_ediv_of_nonneg _ hpow]
  norm_cast

end

/-! ## The result of a shift -/

section
variable {op : ShiftOp} {v n : Word}

theorem shiftResult_lsl (hn : n.toNat ≤ 15) :
    shiftResult .lsl v n = BitVec.ofNat 16 (v.toNat * 2 ^ n.toNat % 65536) :=
  (if_pos hn).trans (shiftLeft_eq_ofNat_product v n.toNat)

theorem shiftResult_lsr (hn : n.toNat ≤ 15) : shiftResult .lsr v n = BitVec.ofNat 16 (v.toNat / 2 ^ n.toNat) :=
  (if_pos hn).trans (ushiftRight_eq_ofNat_quotient v n.toNat)

theorem shiftResult_asr (hn : n.toNat ≤ 15) :
    shiftResult .asr v n = BitVec.ofInt 16 (Int.fdiv v.toInt (2 ^ n.toNat)) :=
  (if_pos hn).trans (sshiftRight_eq_ofInt_floor v n.toNat)

theorem shiftResult_over (hn : ¬ n.toNat ≤ 15) : shiftResult op v n = Config.shiftOver op v n := if_neg hn

end

/-! ## The shift instructions -/

/-- An instruction whose two forms both end in `compute` with a shift computes the function that the shift is for the
amounts up to 15, and SHIFT_OVER from 16 on (42_shift R123, decision D6). -/
theorem computesAs_of_shift {regular : RegIdx → RegIdx → Instr} {immediate : RegIdx → RegIdx → Word → Instr}
    {base : Nat} {op : ShiftOp} {shifted : Word → Word → Word} (hwords : HasWords regular immediate base)
    (hregular : ∀ ra rb s, exec (regular ra rb) s = compute (shiftResult op) (sourcesR s ra rb) ra 2 s)
    (himmediate : ∀ ra rb imm s, exec (immediate ra rb imm) s = compute (shiftResult op) (sourcesI s rb imm) ra 4 s)
    (hshift : ∀ v n : Word, n.toNat ≤ 15 → shiftResult op v n = shifted v n) :
    ComputesAs regular immediate base (fun v n => if n.toNat ≤ 15 then shifted v n else Config.shiftOver op v n) := by
  refine computesAs_of_compute hwords hregular himmediate fun v n => ?_
  split
  case isTrue hn => exact hshift v n hn
  case isFalse hn => exact shiftResult_over hn

/-- Settles O6: a shift to the left is a product with a power of two, cut to 16 bits. -/
theorem lslMultipliesByPowerOfTwo : Obligations.LslMultipliesByPowerOfTwo := by
  have hlsl : HasWords .lslR .lslI 0x3000 := hasWords_of_fields 0b001 0b1000 rfl (fun _ _ => rfl) (fun _ _ _ => rfl)
  exact computesAs_of_shift hlsl (fun _ _ _ => rfl) (fun _ _ _ _ => rfl) fun _ _ => shiftResult_lsl

/-- Settles O7: a shift to the right that brings in zeros is the quotient of the unsigned value. -/
theorem lsrDividesUnsigned : Obligations.LsrDividesUnsigned := by
  have hlsr : HasWords .lsrR .lsrI 0x3400 := hasWords_of_fields 0b001 0b1010 rfl (fun _ _ => rfl) (fun _ _ _ => rfl)
  exact computesAs_of_shift hlsr (fun _ _ _ => rfl) (fun _ _ _ _ => rfl) fun _ _ => shiftResult_lsr

/-- Settles O8: a shift to the right that brings in the sign is the floor of the signed quotient. -/
theorem asrDividesSignedTowardMinusInfinity : Obligations.AsrDividesSignedTowardMinusInfinity := by
  have hasr : HasWords .asrR .asrI 0x3600 := hasWords_of_fields 0b001 0b1011 rfl (fun _ _ => rfl) (fun _ _ _ => rfl)
  exact computesAs_of_shift hasr (fun _ _ _ => rfl) (fun _ _ _ _ => rfl) fun _ _ => shiftResult_asr

end Sys2Proof.Machine
end

section
/-! PROOFS. The statements that rest on spec/43_data_transfer.md: what loads and stores do in RAM, where they fault, and
what a byte store does at an output service. -/

namespace Sys2Proof.Machine

variable {s : State} {m : Memory} {i : Instr} {ra : RegIdx} {svc : OutputService} {a v ea len p : Word} {b : Byte}
  {f : Fault}

/-! ## Both forms of an instruction -/

/-- Two forms that end in one operation, each with its own effective address and length, run that operation. -/
theorem exec_of_transferForm {regular : RegIdx → RegIdx → Instr} {immediate : RegIdx → RegIdx → Word → Instr}
    {op : RegIdx → Word → Word → State → Result} (h : TransferForm regular immediate i ra s ea len)
    (hregular : ∀ ra rb s, exec (regular ra rb) s = op ra (effAddrR s rb) 2 s)
    (himmediate : ∀ ra rb imm s, exec (immediate ra rb imm) s = op ra (effAddrI s rb imm) 4 s) :
    exec i s = op ra ea len s := by
  obtain ⟨rb, rfl, rfl, rfl⟩ | ⟨rb, imm, rfl, rfl, rfl⟩ := h
  · exact hregular ra rb s
  · exact himmediate ra rb imm s

theorem exec_ldw (h : TransferForm .ldwR .ldwI i ra s ea len) : exec i s = loadWord ra ea len s :=
  exec_of_transferForm h (fun _ _ _ => rfl) (fun _ _ _ _ => rfl)

theorem exec_ldb (h : TransferForm .ldbR .ldbI i ra s ea len) : exec i s = loadByte sext16 ra ea len s :=
  exec_of_transferForm h (fun _ _ _ => rfl) (fun _ _ _ _ => rfl)

theorem exec_lbu (h : TransferForm .lbuR .lbuI i ra s ea len) : exec i s = loadByte zext16 ra ea len s :=
  exec_of_transferForm h (fun _ _ _ => rfl) (fun _ _ _ _ => rfl)

theorem exec_stb (h : TransferForm .stbR .stbI i ra s ea len) : exec i s = storeByte ra ea len s :=
  exec_of_transferForm h (fun _ _ _ => rfl) (fun _ _ _ _ => rfl)

/-! ## The service table -/

theorem isInputAddress_inputAddress (svc : InputService) : IsInputAddress (inputAddress svc) := by
  unfold IsInputAddress
  cases svc <;> decide

theorem isOutputAddress_outputAddress (svc : OutputService) : IsOutputAddress (outputAddress svc) := by
  unfold IsOutputAddress
  cases svc <;> decide

theorem inputServiceAt_eq_none (h : ¬ IsInputAddress a) : inputServiceAt a = none := by
  refine List.find?_eq_none.2 fun svc _ ha => h ?_
  rw [← beq_iff_eq.1 ha]
  exact isInputAddress_inputAddress svc

theorem outputServiceAt_eq_none (h : ¬ IsOutputAddress a) : outputServiceAt a = none := by
  refine List.find?_eq_none.2 fun svc _ ha => h ?_
  rw [← beq_iff_eq.1 ha]
  exact isOutputAddress_outputAddress svc

/-- The table of numbers and the model's table name the same service at an address (60_exceptions R220). -/
theorem outputServiceAt_of_mem (h : (svc, a) ∈ valueServices ++ stringServices) : outputServiceAt a = some svc := by
  have htable : ∀ row ∈ valueServices ++ stringServices, outputServiceAt row.2 = some row.1 := by decide
  exact htable _ h

theorem takesString_of_mem_valueServices (h : (svc, a) ∈ valueServices) : takesString svc = false := by
  have htable : ∀ row ∈ valueServices, takesString row.1 = false := by decide
  exact htable _ h

theorem takesString_of_mem_stringServices (h : (svc, a) ∈ stringServices) : takesString svc = true := by
  have htable : ∀ row ∈ stringServices, takesString row.1 = true := by decide
  exact htable _ h

theorem IsOutputAddress.exists_mem (h : IsOutputAddress a) : ∃ svc, (svc, a) ∈ valueServices ++ stringServices := by
  obtain ⟨⟨svc, _⟩, hmem, rfl⟩ := List.mem_map.1 h
  exact ⟨svc, hmem⟩

/-- No output service is in RAM, whatever MEM_SIZE is (20_memory R44). -/
theorem IsOutputAddress.inRam_eq_false (h : IsOutputAddress a) : m.inRam a = false := by
  obtain ⟨svc, hmem⟩ := h.exists_mem
  exact Machine.inRam_eq_false (outputServiceAt_some (outputServiceAt_of_mem hmem)).2

/-! ## Loads -/

theorem memReadWord_of_inRam (h : WordInRam s.mem a) : memReadWord s ra a = .ok (ramWord s.mem a.toNat, s) := by
  obtain ⟨heven, hin⟩ := h
  rw [memReadWord, isOdd_eq_false_iff.2 heven, inRam_iff.2 hin, ramWord_eq_wordAt _ heven]
  rfl

theorem memReadWord_of_odd (h : a.toNat % 2 = 1) : memReadWord s ra a = .error (.misalignedAccess a) := by
  rw [memReadWord, if_pos (isOdd_iff.2 h)]

theorem memReadWord_of_unmapped (heven : a.toNat % 2 = 0) (hout : s.mem.size ≤ a.toNat) (hsvc : ¬ IsInputAddress a) :
    memReadWord s ra a = .error (.accessFault a .read) := by
  rw [memReadWord, isOdd_eq_false_iff.2 heven, inRam_eq_false_iff.2 hout, inputServiceAt_eq_none hsvc]
  rfl

theorem loadWord_of_error (h : memReadWord s ra ea = .error f) : loadWord ra ea len s = .fault f := by
  rw [loadWord, h]
  rfl

theorem loadByte_of_inRam (extend : Byte → Word) (h : ByteInRam s.mem ea) :
    loadByte extend ra ea len s = .next (s.writeResult ra (extend (s.mem.byteAt ea.toNat)) len) := by
  rw [loadByte, memReadByte, if_pos (inRam_iff.2 h)]
  rfl

theorem loadByte_of_outside (extend : Byte → Word) (h : ¬ ByteInRam s.mem ea) :
    loadByte extend ra ea len s = .fault (.accessFault ea .read) := by
  rw [loadByte, memReadByte, if_neg (mt inRam_iff.1 h)]
  rfl

theorem sext16_eq_ofInt (b : Byte) : sext16 b = BitVec.ofInt 16 b.toInt := rfl

theorem zext16_eq_ofNat (b : Byte) : zext16 b = BitVec.ofNat 16 b.toNat := (BitVec.ofNat_toNat 16 b).symm

/-- Settles O14: the access reads the word of the two bytes and changes no state. -/
theorem ldwLoadsRamWord : Obligations.LdwLoadsRamWord := by
  have hwords : HasWords .ldwR .ldwI 0x4000 := hasWords_of_fields 0b010 0b0000 rfl (fun _ _ => rfl) (fun _ _ _ => rfl)
  refine ⟨hwords, fun i ra s ea len hform hea => ⟨_, ?_, computes_writeResult ..⟩⟩
  rw [exec_ldw hform, loadWord, memReadWord_of_inRam hea]
  rfl

/-- Settles O18: the two loads are one operation with two extensions of the byte. -/
theorem ldbLbuLoadRamByte : Obligations.LdbLbuLoadRamByte := by
  have hldb : HasWords .ldbR .ldbI 0x4400 := hasWords_of_fields 0b010 0b0010 rfl (fun _ _ => rfl) (fun _ _ _ => rfl)
  have hlbu : HasWords .lbuR .lbuI 0x4600 := hasWords_of_fields 0b010 0b0011 rfl (fun _ _ => rfl) (fun _ _ _ => rfl)
  refine ⟨⟨hldb, hlbu⟩, fun i ra s ea len hform hea => ⟨_, ?_, computes_writeResult ..⟩,
    fun i ra s ea len hform hea => ⟨_, ?_, computes_writeResult ..⟩⟩
  · rw [exec_ldb hform, loadByte_of_inRam sext16 hea, sext16_eq_ofInt]
  · rw [exec_lbu hform, loadByte_of_inRam zext16 hea, zext16_eq_ofNat]

/-! ## Stores in RAM -/

theorem memWriteWord_of_odd (h : a.toNat % 2 = 1) : memWriteWord s a v = .error (.misalignedAccess a) := by
  rw [memWriteWord, if_pos (isOdd_iff.2 h)]

theorem memWriteWord_of_unmapped (heven : a.toNat % 2 = 0) (hout : s.mem.size ≤ a.toNat) (hsvc : ¬ IsOutputAddress a) :
    memWriteWord s a v = .error (.accessFault a .write) := by
  rw [memWriteWord, isOdd_eq_false_iff.2 heven, inRam_eq_false_iff.2 hout, outputServiceAt_eq_none hsvc]
  rfl

theorem storeWord_of_error (h : memWriteWord s ea (s.x ra) = .error f) : storeWord ra ea len s = .fault f := by
  rw [storeWord, h]
  rfl

theorem storeByte_of_inRam (h : ByteInRam s.mem ea) (ra : RegIdx) (len : Word) :
    storeByte ra ea len s =
      .next (State.retire { s with mem := s.mem.setByteAt ea.toNat (lowByte (s.x ra)) } (s.pc + len)) := by
  rw [storeByte, memWriteByte, if_pos (inRam_iff.2 h)]
  rfl

/-- A stored word is read back through its two bytes, whatever the byte order. -/
theorem ramWord_setWordAt (hm : m.wf = true) (ha : WordInRam m a) (v : Word) :
    ramWord (m.setWordAt a.toNat v) a.toNat = v := by
  obtain ⟨heven, hin⟩ := ha
  rw [ramWord_eq_wordAt _ heven, wordAt_setWordAt hm v hin heven heven, if_pos rfl]

theorem lowByte_eq_ofNat (v : Word) : lowByte v = BitVec.ofNat 8 (v.toNat % 256) := by
  apply BitVec.eq_of_toNat_eq
  simp [lowByte]

/-- Settles O20: the store changes the two bytes of one word of memory and pc. -/
theorem stwStoresRamWord : Obligations.StwStoresRamWord := by
  have hwords : HasWords .stwR .stwI 0x4800 := hasWords_of_fields 0b010 0b0100 rfl (fun _ _ => rfl) (fun _ _ _ => rfl)
  refine ⟨hwords, fun i ra s ea len hm hform hea => ?_⟩
  have hkept : ∀ b, b < ea.toNat ∨ ea.toNat + 2 ≤ b →
      (s.mem.setWordAt ea.toNat (s.x ra)).byteAt b = s.mem.byteAt b :=
    fun b hb => byteAt_setWordAt_of_outside hm _ hea.2 hea.1 hb
  exact ⟨_, (exec_stw hform).trans (storeWord_of_inRam hea ra len), ramWord_setWordAt hm hea _, ⟨rfl, hkept⟩,
    fun _ => rfl, rfl, rfl, rfl, rfl⟩

/-- Settles O25: the store changes one byte of memory and pc. -/
theorem stbStoresRamByte : Obligations.StbStoresRamByte := by
  have hwords : HasWords .stbR .stbI 0x4c00 := hasWords_of_fields 0b010 0b0110 rfl (fun _ _ => rfl) (fun _ _ _ => rfl)
  refine ⟨hwords, fun i ra s ea len hm hform hea => ?_⟩
  have hbyte := byteAt_setByteAt hm ea.toNat (v := lowByte (s.x ra))
  refine ⟨_, (exec_stb hform).trans (storeByte_of_inRam hea ra len), ?_, ⟨rfl, fun b hb => ?_⟩, fun _ => rfl, rfl, rfl,
    rfl, rfl⟩
  · exact ((hbyte ea.toNat).trans (if_pos rfl)).trans (lowByte_eq_ofNat _)
  · exact (hbyte b).trans (if_neg (by omega))

/-! ## Strings in memory -/

/-- Bytes that are not zero, with a zero byte after them and all in RAM, are the string at their address. -/
theorem stringAt_of_bytesAt {bytes : List Byte} (hin : a.toNat + bytes.length < m.size) (hnz : ∀ b ∈ bytes, b ≠ 0)
    (hbytes : BytesAt m a.toNat (bytes ++ [0])) : m.stringAt a = .ok bytes := by
  have hat : ∀ (j : Nat) (hj : j < bytes.length), m.byteAt (a.toNat + j) = bytes[j] := fun j hj => by
    rw [hbytes j (by simp; omega), List.getElem_append_left hj]
  have hzero : m.byteAt (a.toNat + bytes.length) = 0 := by
    rw [hbytes bytes.length (by simp), List.getElem_concat_length rfl]
  rw [Memory.stringAt, stringFrom_of_bytes (by omega) hnz hat hzero]

/-- With no zero byte in RAM from the address on, the read reaches MEM_SIZE, or the address itself if it is outside RAM
(60_exceptions R226). -/
theorem stringAt_of_no_zero (h : ∀ b, a.toNat ≤ b → b < m.size → m.byteAt b ≠ 0) :
    m.stringAt a = .error (if a.toNat < m.size then BitVec.ofNat 16 m.size else a) := by
  rw [Memory.stringAt, stringFrom_of_no_zero fun b hab hb => h b hab (by omega)]
  split_ifs with hin
  · rw [Nat.add_sub_cancel' hin.le]
  · have hnothing : m.size - a.toNat = 0 := by omega
    simp only [hnothing, Nat.add_zero, BitVec.ofNat_toNat, BitVec.setWidth_eq]

/-! ## Output services -/

theorem performOutput_of_value (h : takesString svc = false) :
    performOutput s svc v = .ok (s.emit (.value svc v)) := by
  rw [performOutput, outputEvent, h]
  rfl

theorem performOutput_of_string {bytes : List Byte} (h : takesString svc = true) (hv : s.mem.stringAt v = .ok bytes) :
    performOutput s svc v = .ok (s.emit (.string svc bytes)) := by
  rw [performOutput, outputEvent, if_pos h, hv]
  rfl

theorem performOutput_of_stringError (h : takesString svc = true) (hv : s.mem.stringAt v = .error a) :
    performOutput s svc v = .error (.accessFault a .read) := by
  rw [performOutput, outputEvent, if_pos h, hv]
  rfl

theorem emits_retire_emit (s : State) (e : OutEvent) (p : Word) : Emits s ((s.emit e).retire p) e p :=
  ⟨fun _ => rfl, rfl, sameRam_of_mem_eq rfl, rfl, rfl, rfl⟩

/-- An instruction that calls the output service found at its address, and then moves on, performs every service. -/
theorem performsService_of_exec
    (hexec : outputServiceAt ea = some svc → exec i s = complete ((performOutput s svc v).map (·.retire p))) :
    PerformsService i s svc ea v p := by
  refine ⟨fun hmem => ?_, fun hmem => ?_⟩
  · have hvalue := performOutput_of_value (s := s) (v := v) (takesString_of_mem_valueServices hmem)
    rw [hexec (outputServiceAt_of_mem (List.mem_append_left _ hmem)), hvalue]
    exact ⟨_, rfl, emits_retire_emit ..⟩
  · have hstring := takesString_of_mem_stringServices hmem
    rw [hexec (outputServiceAt_of_mem (List.mem_append_right _ hmem))]
    refine ⟨fun bytes hin hnz hbytes => ?_, fun hnone => ?_⟩
    · rw [performOutput_of_string hstring (stringAt_of_bytesAt hin hnz hbytes)]
      exact ⟨_, rfl, emits_retire_emit ..⟩
    · rw [performOutput_of_stringError hstring (stringAt_of_no_zero hnone)]
      rfl

/-! ## Byte stores outside RAM -/

/-- The byte of a register, zero-extended, as a number. -/
theorem zext16_lowByte (v : Word) : zext16 (lowByte v) = BitVec.ofNat 16 (v.toNat % 256) := by
  have hlt : v.toNat % 256 < 2 ^ 8 := Nat.mod_lt _ (by decide)
  rw [zext16_eq_ofNat, lowByte_eq_ofNat, BitVec.toNat_ofNat, Nat.mod_eq_of_lt hlt]

theorem storeByteOutsideRam_of_none (h : outputServiceAt a = none) :
    storeByteOutsideRam s a b = .error (.accessFault a .write) := by
  simp only [storeByteOutsideRam, h]

theorem storeByteOutsideRam_of_ioFault (h : Config.ioByteAccess = .fault) :
    storeByteOutsideRam s a b = .error (.accessFault a .write) := by
  rw [storeByteOutsideRam, h]
  cases outputServiceAt a <;> rfl

theorem storeByteOutsideRam_of_asStw (hio : Config.ioByteAccess = .asStw) (h : outputServiceAt a = some svc) :
    storeByteOutsideRam s a b = performOutput s svc (zext16 b) := by
  simp only [storeByteOutsideRam, hio, h]

theorem storeByte_of_outside (h : s.mem.inRam ea = false) :
    storeByte ra ea len s =
      complete ((storeByteOutsideRam s ea (lowByte (s.x ra))).map (·.retire (s.pc + len))) := by
  rw [storeByte, memWriteByte, h]
  rfl

/-- Settles O26, by the value of the open parameter IO_BYTE_ACCESS. -/
theorem stbOutsideRamFollowsIoByteAccess : Obligations.StbOutsideRamFollowsIoByteAccess := by
  intro i ra s ea len hform
  rw [exec_stb hform]
  refine ⟨fun hout hnone => ?_, fun hsvc => ?_⟩
  · have hram : s.mem.inRam ea = false := Bool.eq_false_iff.2 (mt inRam_iff.1 hout)
    rw [storeByte_of_outside hram, storeByteOutsideRam_of_none (outputServiceAt_eq_none hnone)]
    rfl
  · have hstore := storeByte_of_outside (ra := ra) (len := len) (hsvc.inRam_eq_false (m := s.mem))
    cases hio : Config.ioByteAccess with
    | fault =>
      rw [hstore, storeByteOutsideRam_of_ioFault hio]
      rfl
    | asStw =>
      refine fun svc => performsService_of_exec fun hat => ?_
      rw [exec_stb hform, hstore, storeByteOutsideRam_of_asStw hio hat, zext16_lowByte]

/-! ## Faults off the map -/

/-- Settles O17, by the outcome of the access: its two faults stop the load. -/
theorem ldwFaultsOffTheMap : Obligations.LdwFaultsOffTheMap := by
  intro i ra s ea len hform
  rw [exec_ldw hform]
  exact ⟨fun hodd => loadWord_of_error (memReadWord_of_odd hodd),
    fun heven hout hsvc => loadWord_of_error (memReadWord_of_unmapped heven hout hsvc)⟩

/-- Settles O19: a byte load looks at RAM alone. -/
theorem ldbLbuFaultOutsideRam : Obligations.LdbLbuFaultOutsideRam :=
  ⟨fun _ _ _ _ _ hform hout => (exec_ldb hform).trans (loadByte_of_outside sext16 hout),
    fun _ _ _ _ _ hform hout => (exec_lbu hform).trans (loadByte_of_outside zext16 hout)⟩

/-- Settles O24, by the outcome of the access: its two faults stop the store. -/
theorem stwFaultsOffTheMap : Obligations.StwFaultsOffTheMap := by
  intro i ra s ea len hform
  rw [exec_stw hform]
  exact ⟨fun hodd => storeWord_of_error (memWriteWord_of_odd hodd),
    fun heven hout hsvc => storeWord_of_error (memWriteWord_of_unmapped heven hout hsvc)⟩

end Sys2Proof.Machine
end

section
/-! PROOFS. The statements that rest on spec/44_control_transfer.md: where the branches go, and that they change nothing
but pc. -/

namespace Sys2Proof.Machine

/-! ## What a branch does -/

theorem jumps_retire (s : State) (p : Word) : Jumps s (s.retire p) p :=
  ⟨fun k => retire_x s k p, rfl, sameRam_of_mem_eq rfl, rfl, rfl, rfl⟩

/-- A branch whose condition tests a relation goes to the target where the relation holds of its two values, and past its
own words elsewhere (44_control_transfer R140). -/
theorem branch_jumps {c : Cond} {rel : Word → Word → Prop} [DecidableRel rel] (hrel : ∀ a b, c.holds a b = true ↔ rel a b)
    (o : BranchOperands) (len : Word) (s : State) :
    ∃ t, branch c o len s = .next t ∧ Jumps s t (if decide (rel o.first o.second) then o.target else s.pc + len) := by
  have hcond : c.holds o.first o.second = decide (rel o.first o.second) := by
    rw [Bool.eq_iff_iff, hrel, decide_eq_true_iff]
  rw [← hcond]
  exact ⟨_, rfl, jumps_retire ..⟩

/-- An instruction whose two forms both end in `branch` with a condition decides by the relation that the condition
tests. -/
theorem branchesAs_of_condition {regular : RegIdx → RegIdx → Instr} {immediate : RegIdx → RegIdx → Word → Instr}
    {base : Nat} {c : Cond} {rel : Word → Word → Prop} [DecidableRel rel] (hwords : HasWords regular immediate base)
    (hregular : ∀ ra rb s, exec (regular ra rb) s = branch c (branchOperandsR s ra rb) 2 s)
    (himmediate : ∀ ra rb imm s, exec (immediate ra rb imm) s = branch c (branchOperandsI s ra rb imm) 4 s)
    (hrel : ∀ a b, c.holds a b = true ↔ rel a b) :
    BranchesAs regular immediate base (fun a b => decide (rel a b)) := by
  intro ra rb imm s
  obtain ⟨hwordR, hwordsI⟩ := hwords ra rb imm
  rw [hregular, himmediate]
  exact ⟨hwordR, hwordsI, branch_jumps hrel .., branch_jumps hrel ..⟩

/-! ## The six branches -/

/-- Settles O9: the conditions of blt and bge order the two's-complement values. -/
theorem bltBgeBranchSigned : Obligations.BltBgeBranchSigned := by
  have hblt : HasWords .bltR .bltI 0x8000 := hasWords_of_fields 0b100 0b0000 rfl (fun _ _ => rfl) (fun _ _ _ => rfl)
  have hbge : HasWords .bgeR .bgeI 0x8200 := hasWords_of_fields 0b100 0b0001 rfl (fun _ _ => rfl) (fun _ _ _ => rfl)
  exact ⟨branchesAs_of_condition hblt (fun _ _ _ => rfl) (fun _ _ _ _ => rfl) lessThan_holds_iff,
    branchesAs_of_condition hbge (fun _ _ _ => rfl) (fun _ _ _ _ => rfl) greaterEqual_holds_iff⟩

/-- Settles O10: the conditions of bbl and bae order the unsigned values. -/
theorem bblBaeBranchUnsigned : Obligations.BblBaeBranchUnsigned := by
  have hbbl : HasWords .bblR .bblI 0x8800 := hasWords_of_fields 0b100 0b0100 rfl (fun _ _ => rfl) (fun _ _ _ => rfl)
  have hbae : HasWords .baeR .baeI 0x8a00 := hasWords_of_fields 0b100 0b0101 rfl (fun _ _ => rfl) (fun _ _ _ => rfl)
  exact ⟨branchesAs_of_condition hbbl (fun _ _ _ => rfl) (fun _ _ _ _ => rfl) below_holds_iff,
    branchesAs_of_condition hbae (fun _ _ _ => rfl) (fun _ _ _ _ => rfl) aboveEqual_holds_iff⟩

/-- Settles O11: the conditions of beq and bne compare the whole words. -/
theorem beqBneBranchOnEquality : Obligations.BeqBneBranchOnEquality := by
  have hbeq : HasWords .beqR .beqI 0x9000 := hasWords_of_fields 0b100 0b1000 rfl (fun _ _ => rfl) (fun _ _ _ => rfl)
  have hbne : HasWords .bneR .bneI 0x9200 := hasWords_of_fields 0b100 0b1001 rfl (fun _ _ => rfl) (fun _ _ _ => rfl)
  exact ⟨branchesAs_of_condition hbeq (fun _ _ _ => rfl) (fun _ _ _ _ => rfl) equal_holds_iff,
    branchesAs_of_condition hbne (fun _ _ _ => rfl) (fun _ _ _ _ => rfl) notEqual_holds_iff⟩

/-- Settles O12, from O10: no unsigned value is below zero. -/
theorem regularBblNeverRegularBaeAlwaysTaken : Obligations.RegularBblNeverRegularBaeAlwaysTaken := by
  intro ra rb s
  obtain ⟨hbbl, hbae⟩ := bblBaeBranchUnsigned
  obtain ⟨-, -, hbblR, -⟩ := hbbl ra rb 0 s
  obtain ⟨-, -, hbaeR, -⟩ := hbae ra rb 0 s
  have hnever : ¬ decide ((s.x ra).toNat < (0 : Word).toNat) = true := by simp
  have halways : decide ((s.x ra).toNat ≥ (0 : Word).toNat) = true := by simp
  rw [if_neg hnever] at hbblR
  rw [if_pos halways] at hbaeR
  exact ⟨hbblR, hbaeR⟩

end Sys2Proof.Machine
end

section
/-! PROOFS. The statement that rests on spec/45_halt.md: what hlt does, and that no step follows it. -/

namespace Sys2Proof.Machine

/-- The words of hlt, whatever its ignored register fields are (30_encoding R82, decision D5). -/
theorem encode_hlt (ra rb : RegIdx) : encode (.hlt ra rb) = [codeWord 0xf800 ra rb] := by
  rw [encode, headWord_eq_codeWord]
  rfl

theorem exec_hlt (ra rb : RegIdx) (s : State) :
    exec (.hlt ra rb) s = .next ({ s with halted := true }.retire s.pc) := rfl

/-- Settles O13: hlt sets only `halted` and counts its cycle, and the step looks at `halted` before anything else. -/
theorem hltHaltsForGood : Obligations.HltHaltsForGood := by
  intro ra rb s
  exact ⟨encode_hlt ra rb, _, exec_hlt ra rb s, retire_halted .., retire_pc .., fun k => retire_x _ k s.pc,
    sameRam_of_mem_eq (retire_mem ..), retire_output .., retire_inputsRead .., step_of_halted (retire_halted ..)⟩

end Sys2Proof.Machine
end

section
/-! PROOFS. The statements that rest on spec/46_assembly_language.md: the size of an image and its references, the bytes of
a launched source, and the object file, written, read back and loaded line by line. -/

namespace Sys2Proof.Machine

variable {m : Memory} {a : Word} {symbols : List (String × Nat)} {line : SourceLine} {lines rest : List SourceLine}
  {image : List ImageWord} {e : AsmError}

/-! ## The sizes of lines and the references -/

theorem padded_even (n : Nat) : padded n % 2 = 0 := by
  rw [padded]; omega

theorem size_even (line : SourceLine) : line.size % 2 = 0 := by
  cases line with
  | label | halt => rfl
  | instr mn ra rb imm => cases imm <;> simp [SourceLine.size]
  | words items => exact Nat.mul_mod_right 2 items.length
  | bytes | reserve | text => exact padded_even _

/-- A reference has the address it is declared at, which is that of the line after it (46_assembly_language R163). -/
theorem mem_symbolsFrom_cons {start v : Nat} {name : String} :
    (name, v) ∈ symbolsFrom start (line :: rest) ↔
      (line = .label name ∧ v = start) ∨ (name, v) ∈ symbolsFrom (start + line.size) rest := by
  cases line with
  | label declared => simp [symbolsFrom, SourceLine.size, eq_comm]
  | _ => simp [symbolsFrom]

theorem symbolsFrom_even {start v : Nat} {name : String} (hstart : start % 2 = 0)
    (h : (name, v) ∈ symbolsFrom start lines) : v % 2 = 0 := by
  induction lines generalizing start with
  | nil => cases h
  | cons line rest ih =>
    obtain ⟨-, rfl⟩ | hrest := mem_symbolsFrom_cons.1 h
    · exact hstart
    · have := size_even line
      exact ih (by omega) hrest

/-- Settles O46: the first address is even, and so is the size of every line. -/
theorem labelsAreEven : Obligations.LabelsAreEven :=
  fun _ _ _ h => symbolsFrom_even rfl h

/-! ## The image of one line -/

theorem map_eq_ok {α β ε : Type} {r : Except ε α} {f : α → β} {y : β} (h : r.map f = .ok y) :
    ∃ x, r = .ok x ∧ y = f x := by
  cases r with
  | ok x => exact ⟨x, rfl, (Except.ok.inj h).symm⟩
  | error e => cases h

theorem mapM_eq_ok_iff {α β ε : Type} {f : α → Except ε β} {xs : List α} {ys : List β} :
    xs.mapM f = .ok ys ↔ List.Forall₂ (fun x y => f x = .ok y) xs ys := by
  induction xs generalizing ys with
  | nil => simp [pure, Except.pure, eq_comm]
  | cons x xs ih =>
    rw [List.mapM_cons, List.forall₂_cons_left_iff]
    cases hx : f x with
    | error e => simp [bind, Except.bind]
    | ok y =>
      cases hxs : xs.mapM f with
      | error e => simp [bind, Except.bind, ← ih, hxs]
      | ok ys' => simp [bind, Except.bind, pure, Except.pure, ← ih, hxs, eq_comm]

theorem regular_fields_imm (mn : Mnemonic) (ra rb : RegIdx) : (mn.regular ra rb).fields.imm = none := by
  cases mn <;> rfl

theorem immediate_fields_imm (mn : Mnemonic) (ra rb : RegIdx) (imm : Word) :
    (mn.immediate ra rb imm).fields.imm = some imm := by
  cases mn <;> rfl

theorem encode_regular_length (mn : Mnemonic) (ra rb : RegIdx) : (encode (mn.regular ra rb)).length = 1 := by
  rw [encode, regular_fields_imm]; rfl

theorem encode_immediate_length (mn : Mnemonic) (ra rb : RegIdx) (imm : Word) :
    (encode (mn.immediate ra rb imm)).length = 2 := by
  rw [encode, immediate_fields_imm]; rfl

theorem numberByte_ok {n : Int} {b : Byte} (h : numberByte n = .ok b) : BitVec.ofInt 8 n = b := by
  unfold numberByte at h
  split at h
  · exact Except.ok.inj h
  · cases h

theorem mapM_numberByte_ok {items : List Int} {bytes : List Byte} (h : items.mapM numberByte = .ok bytes) :
    bytes = items.map (BitVec.ofInt 8) := by
  have heq : List.Forall₂ (· = ·) (items.map (BitVec.ofInt 8)) bytes :=
    List.forall₂_map_left_iff.2 ((mapM_eq_ok_iff.1 h).imp fun _ _ => numberByte_ok)
  rw [List.forall₂_eq_eq_eq] at heq
  exact heq.symm

/-- What a line emits fills the bytes that R177 counts for it. -/
theorem assembleLine_length (h : assembleLine symbols line = .ok image) : 2 * image.length = line.size := by
  cases line with
  | label name => cases h; rfl
  | instr mn ra rb imm =>
    cases imm with
    | none => cases h; rw [List.length_map, encode_regular_length]; rfl
    | some k =>
      obtain ⟨v, -, rfl⟩ := map_eq_ok h
      rw [List.length_map, encode_immediate_length]; rfl
  | halt => cases h; rfl
  | words items =>
    obtain ⟨ws, hws, rfl⟩ := map_eq_ok h
    rw [List.length_map, ← (mapM_eq_ok_iff.1 hws).length_eq]; rfl
  | bytes items =>
    obtain ⟨bytes, hbytes, rfl⟩ := map_eq_ok h
    rw [packBytes_length, ← (mapM_eq_ok_iff.1 hbytes).length_eq]; rfl
  | reserve n => cases h; rw [packBytes_length, List.length_replicate]; rfl
  | text chars => cases h; rw [packBytes_length, List.length_append]; rfl

/-- A line that declares bytes emits these, packed into words. -/
theorem assembleLine_declares (h : assembleLine symbols line = .ok image) :
    declaredBytes line = [] ∨ image = packBytes (declaredBytes line) := by
  cases line with
  | label | instr | halt | words => exact .inl rfl
  | bytes items =>
    obtain ⟨bytes, hbytes, rfl⟩ := map_eq_ok h
    exact .inr (congrArg packBytes (mapM_numberByte_ok hbytes))
  | reserve | text => cases h; exact .inr rfl

/-! ## The image of several lines -/

/-- What lines emit with a given symbol table: the part of `assemble` after the references are resolved. -/
def imageOf (symbols : List (String × Nat)) (lines : List SourceLine) : Except AsmError (List ImageWord) :=
  (lines.mapM (assembleLine symbols)).map List.flatten

theorem assemble_of_resolved (h : resolvedSymbols lines = .ok symbols) : assemble lines = imageOf symbols lines := by
  rw [assemble, h]; rfl

theorem assemble_of_unresolved (h : resolvedSymbols lines = .error e) : assemble lines = .error e := by
  rw [assemble, h]

theorem assemble_ok (h : assemble lines = .ok image) : ∃ symbols, imageOf symbols lines = .ok image := by
  cases hs : resolvedSymbols lines with
  | ok symbols => exact ⟨symbols, assemble_of_resolved hs ▸ h⟩
  | error e => rw [assemble_of_unresolved hs] at h; cases h

theorem imageOf_nil : imageOf symbols [] = .ok [] := rfl

theorem imageOf_cons_of_error (h : assembleLine symbols line = .error e) :
    imageOf symbols (line :: rest) = .error e := by
  rw [imageOf, List.mapM_cons, h]; rfl

theorem imageOf_cons_of_ok (h : assembleLine symbols line = .ok image) :
    imageOf symbols (line :: rest) = (imageOf symbols rest).map (image ++ ·) := by
  rw [imageOf, imageOf, List.mapM_cons, h]
  cases rest.mapM (assembleLine symbols) <;> rfl

theorem imageOf_cons_ok (h : imageOf symbols (line :: rest) = .ok image) :
    ∃ first others, assembleLine symbols line = .ok first ∧ imageOf symbols rest = .ok others ∧
      image = first ++ others := by
  cases hline : assembleLine symbols line with
  | error e => rw [imageOf_cons_of_error hline] at h; cases h
  | ok first =>
    rw [imageOf_cons_of_ok hline] at h
    obtain ⟨others, hrest, himage⟩ := map_eq_ok h
    exact ⟨first, others, rfl, hrest, himage⟩

theorem imageOf_append_ok {before after : List SourceLine} (h : imageOf symbols (before ++ after) = .ok image) :
    ∃ front back, imageOf symbols before = .ok front ∧ imageOf symbols after = .ok back ∧ image = front ++ back := by
  induction before generalizing image with
  | nil => exact ⟨[], image, imageOf_nil, h, rfl⟩
  | cons line before ih =>
    obtain ⟨first, others, hline, hothers, rfl⟩ := imageOf_cons_ok h
    obtain ⟨front, back, hfront, hback, rfl⟩ := ih hothers
    refine ⟨first ++ front, back, ?_, hback, (List.append_assoc ..).symm⟩
    rw [imageOf_cons_of_ok hline, hfront]; rfl

theorem imageOf_length (h : imageOf symbols lines = .ok image) : 2 * image.length = (lines.map SourceLine.size).sum := by
  induction lines generalizing image with
  | nil => cases h; rfl
  | cons line rest ih =>
    obtain ⟨first, others, hline, hrest, rfl⟩ := imageOf_cons_ok h
    rw [List.length_append, Nat.mul_add, assembleLine_length hline, ih hrest]; rfl

/-- Settles O44, line by line. -/
theorem assembledSizeIsSumOfLines : Obligations.AssembledSizeIsSumOfLines := by
  intro lines image h
  obtain ⟨symbols, himage⟩ := assemble_ok h
  exact imageOf_length himage

/-! ## Words and bytes in memory -/

/-- The words stand one after another in memory from address a on, as their bytes do (20_memory R41). -/
def WordsAt (m : Memory) (a : Nat) (words : List Word) : Prop :=
  ∀ (j : Nat) (h : j < words.length), ramWord m (a + 2 * j) = words[j]

theorem wordsAt_setWordsAt (hm : m.wf = true) {a : Nat} (ha : a % 2 = 0) {words : List Word}
    (hfits : a + 2 * words.length ≤ m.size) : WordsAt (m.setWordsAt a words) a words :=
  fun _ hj => ramWord_setWordsAt hm ha hfits hj

theorem WordsAt.append_left {a : Nat} {p q : List Word} (h : WordsAt m a (p ++ q)) : WordsAt m a p := by
  intro j hj
  rw [h j (by rw [List.length_append]; omega), List.getElem_append_left hj]

theorem WordsAt.append_right {a : Nat} {p q : List Word} (h : WordsAt m a (p ++ q)) :
    WordsAt m (a + 2 * p.length) q := by
  intro j hj
  have := h (p.length + j) (by rw [List.length_append]; omega)
  rw [List.getElem_append_right (by omega)] at this
  simpa [Nat.mul_add, Nat.add_assoc] using this

theorem WordsAt.head {a : Nat} {w : Word} {ws : List Word} (h : WordsAt m a (w :: ws)) : ramWord m a = w :=
  h 0 (Nat.succ_pos _)

theorem bytesAt_nil {a : Nat} : BytesAt m a [] := fun _ h => absurd h (Nat.not_lt_zero _)

theorem bytesAt_cons {a : Nat} {b : Byte} {bytes : List Byte} (hb : m.byteAt a = b) (hbytes : BytesAt m (a + 1) bytes) :
    BytesAt m a (b :: bytes) := by
  intro i hi
  cases i with
  | zero => exact hb
  | succ i =>
    have := hbytes i (Nat.lt_of_succ_lt_succ hi)
    rwa [Nat.add_right_comm] at this

theorem toWord_pair (order : ByteOrder) (b0 b1 : Byte) : (ImageWord.pair b0 b1).toWord order = joinBytes order b0 b1 := by
  cases order <;> rfl

theorem withPadding_cons_cons (b0 b1 : Byte) (bytes : List Byte) :
    withPadding (b0 :: b1 :: bytes) = b0 :: b1 :: withPadding bytes := by
  simp only [withPadding, List.length_cons, Nat.add_assoc, Nat.add_mod_right]
  split <;> rfl

/-- The words packed from bytes, standing in memory, are these bytes and the padding, for either byte order
(46_assembly_language R175, R176). -/
theorem bytesAt_of_packBytes : ∀ {a : Nat} {bytes : List Byte},
    WordsAt m a ((packBytes bytes).map (ImageWord.toWord Config.byteOrder)) → BytesAt m a (withPadding bytes)
  | _, [], _ => bytesAt_nil
  | _, [_], h => by
    obtain ⟨h0, h1⟩ := joinBytes_inj.1 (h.head.trans (toWord_pair ..))
    exact bytesAt_cons h0 (bytesAt_cons h1 bytesAt_nil)
  | _, b0 :: b1 :: bytes, h => by
    obtain ⟨h0, h1⟩ := joinBytes_inj.1 (h.head.trans (toWord_pair ..))
    rw [withPadding_cons_cons]
    exact bytesAt_cons h0 (bytesAt_cons h1 (bytesAt_of_packBytes (h.append_right (p := [_]))))

theorem launch_eq_none {p : Platform} {program : List Word} (h : ¬ 2 * program.length ≤ p.initMem.size) :
    State.launch p program = none := by
  simp [State.launch, loadProgram, programBytes, h]

theorem launch_ok {p : Platform} {program : List Word} {s : State} (h : State.launch p program = some s) :
    2 * program.length ≤ p.initMem.size ∧ s.mem = p.initMem.setWordsAt 0 program := by
  by_cases hfits : 2 * program.length ≤ p.initMem.size
  · rw [launch_of_fits hfits] at h
    cases h
    exact ⟨hfits, rfl⟩
  · rw [launch_eq_none hfits] at h
    cases h

theorem launch_wordsAt {p : Platform} {program : List Word} {s : State} (hm : p.initMem.wf = true)
    (h : State.launch p program = some s) : WordsAt s.mem 0 program := by
  obtain ⟨hfits, hmem⟩ := launch_ok h
  rw [hmem]
  exact wordsAt_setWordsAt hm rfl (by omega)

/-- Settles O45: a pair is stored as its two bytes, and the words a line emits stand behind those of the lines before it. -/
theorem byteItemsLoadAtConsecutiveAddresses : Obligations.ByteItemsLoadAtConsecutiveAddresses := by
  refine ⟨fun m a b0 b1 hm heven ha => ?_, fun before after line code p s hm hcode hs => ?_⟩
  · rw [toWord_pair]
    exact byteAt_setWordAt_joinBytes hm heven ha b0 b1
  · obtain ⟨image, himage, rfl⟩ := map_eq_ok hcode
    obtain ⟨symbols, himage⟩ := assemble_ok himage
    obtain ⟨front, back, hfront, hback, rfl⟩ := imageOf_append_ok himage
    obtain ⟨first, others, hline, -, rfl⟩ := imageOf_cons_ok hback
    have hwords := launch_wordsAt hm hs
    rw [List.map_append, List.map_append] at hwords
    have hfirst := hwords.append_right.append_left
    rw [List.length_map, imageOf_length hfront, Nat.zero_add] at hfirst
    obtain hnone | rfl := assembleLine_declares hline
    · rw [hnone]
      exact bytesAt_nil
    · exact bytesAt_of_packBytes hfirst

/-! ## Loading line by line -/

theorem loadLine_of_inRam (heven : a.toNat % 2 = 0) (ha : a.toNat < m.size) (w : Word) :
    loadLine m (a, w) = some (m.setWordAt a.toNat w) :=
  if_pos ⟨isOdd_eq_false_iff.2 heven, inRam_iff.2 ha⟩

theorem loadLine_of_outside (h : m.size ≤ a.toNat) (w : Word) : loadLine m (a, w) = none := by
  simp [loadLine, inRam_eq_false_iff.2 h]

/-- Lines with consecutive addresses are loaded exactly if their words fit, and then as these words one after another.
RAM ends before the addresses wrap around. -/
theorem loadLines_addressed (heven : a.toNat % 2 = 0) (ha : a.toNat ≤ m.size) (words : List Word) :
    loadLines m (addressed a words) =
      if a.toNat + 2 * words.length ≤ m.size then some (m.setWordsAt a.toNat words) else none := by
  induction words generalizing m a with
  | nil => exact (if_pos ha).symm
  | cons w words ih =>
    rw [addressed, loadLines, List.length_cons]
    obtain hin | hend : a.toNat < m.size ∨ m.size ≤ a.toNat := Nat.lt_or_ge ..
    · have hsize := m.size_even
      have hnext := toNat_add_two_of_inRam hin
      have hlast : a.toNat + 1 < m.size := by omega
      rw [loadLine_of_inRam heven hin, Option.bind_some, ih (by omega) (by rw [setWordAt_size]; omega), setWordAt_size,
        hnext, Memory.setWordsAt, if_pos hlast, Nat.mul_succ, Nat.add_assoc, Nat.add_comm 2]
    · rw [loadLine_of_outside hend, if_neg (by omega)]; rfl

/-- Settles O48: from address 0 on, the lines and the program are loaded under the same condition, to the same RAM. -/
theorem loadingLinesIsLoadingTheProgram : Obligations.LoadingLinesIsLoadingTheProgram := by
  intro p code
  have hload : loadLines p.initMem (addressed 0 code) = loadProgram p.initMem code := by
    rw [loadLines_addressed rfl (Nat.zero_le _), loadProgram, programBytes]
    simp
  rw [State.launchLines, State.launch, hload]

/-! ## Writing and reading one line of an object file -/

theorem newline_notMem_hex4 (w : Word) : '\n' ∉ (hex4 w).toList := by
  have hw := w.isLt
  have h1 := digitChar_ne_newline (n := w.toNat / 4096) (by omega)
  have h2 := digitChar_ne_newline (n := w.toNat / 256 % 16) (by omega)
  have h3 := digitChar_ne_newline (n := w.toNat / 16 % 16) (by omega)
  have h4 := digitChar_ne_newline (n := w.toNat % 16) (by omega)
  simp [hex4_toList, h1.symm, h2.symm, h3.symm, h4.symm]

theorem newline_notMem_toDigits (n : Nat) : '\n' ∉ Nat.toDigits 10 n :=
  fun h => absurd (Nat.isDigit_of_mem_toDigits (by decide) (by decide) h) (by decide)

theorem newline_notMem_instrName (i : Instr) : '\n' ∉ (instrName i).toList := by
  cases i <;> simp [instrName]

theorem newline_notMem_disassemble (i : Instr) : '\n' ∉ (disassemble i).toList := by
  have hname := newline_notMem_instrName i
  cases himm : i.fields.imm <;> simp [disassemble, registerText, himm, hname, newline_notMem_toDigits]

/-- A text that may stand as the third column of a line: it is read as one and does not end the line. -/
def FitsThirdColumn (third : String) : Prop := isThirdColumn third.toList = true ∧ '\n' ∉ third.toList

theorem fitsThirdColumn_empty : FitsThirdColumn "" := ⟨rfl, by simp⟩

theorem fitsThirdColumn_disassemble (i : Instr) : FitsThirdColumn (" (" ++ disassemble i ++ ")") := by
  refine ⟨?_, ?_⟩
  · simp [isThirdColumn, List.getLast?_cons]
  · simp [newline_notMem_disassemble]

theorem fitsThirdColumn_thirdColumn (line : SourceLine) (words : List Word) :
    FitsThirdColumn (thirdColumn line words) := by
  unfold thirdColumn
  split
  · split
    · exact fitsThirdColumn_disassemble _
    · exact fitsThirdColumn_empty
  · exact fitsThirdColumn_disassemble _
  · exact fitsThirdColumn_empty

/-- The text is one line of an object file, which is read as the given address and word. -/
def ListsLine (text : String) (entry : Word × Word) : Prop :=
  readObjectLine text.toList = some entry ∧ '\n' ∉ text.toList

theorem ListsLine.toList_ne_nil {text : String} {entry : Word × Word} (h : ListsLine text entry) : text.toList ≠ [] := by
  intro hnil
  have := h.1
  rw [hnil] at this
  cases this

theorem listsLine_of_columns (a w : Word) {third : String} (h : FitsThirdColumn third) :
    ListsLine (hex4 a ++ " " ++ hex4 w ++ third) (a, w) := by
  have hlen (v : Word) : (hex4 v).toList.length = 4 := by rw [hex4_toList]; rfl
  have htext : (hex4 a ++ " " ++ hex4 w ++ third).toList = (hex4 a).toList ++ ' ' :: ((hex4 w).toList ++ third.toList) := by
    simp
  rw [ListsLine, htext]
  refine ⟨?_, ?_⟩
  · rw [readObjectLine, List.take_left' (hlen a), List.drop_left' (hlen a), readHex4_hex4]
    simp only [List.take_left' (hlen w), List.drop_left' (hlen w), readHex4_hex4, h.1, if_true]
  · simp [newline_notMem_hex4, h.2]

theorem listingLines_lists (a : Word) {third : String} (h : FitsThirdColumn third) (words : List Word) :
    List.Forall₂ ListsLine (listingLines a third words) (addressed a words) := by
  induction words generalizing a third with
  | nil => exact .nil
  | cons w words ih => exact .cons (listsLine_of_columns a w h) (ih (a + 2) fitsThirdColumn_empty)

/-! ## The lines of a text -/

theorem splitAtChar_append_sep {sep : Char → Bool} {c : Char} (hc : sep c = true) {cs : List Char}
    (hcs : ∀ d ∈ cs, sep d = false) (rest : List Char) :
    splitAtChar sep (cs ++ c :: rest) = cs :: splitAtChar sep rest := by
  induction cs with
  | nil => simp [splitAtChar, hc]
  | cons d cs ih =>
    rw [List.forall_mem_cons] at hcs
    rw [List.cons_append, splitAtChar, ih hcs.2]
    simp [hcs.1]

theorem objectText_cons (text : String) (texts : List String) :
    (objectText (text :: texts)).toList = text.toList ++ '\n' :: (objectText texts).toList := by
  simp [objectText]

/-- The lines found in an object file's text are those it was written from; the empty one after the last line end is
passed over. -/
theorem lines_objectText {texts : List String} {entries : List (Word × Word)} (h : List.Forall₂ ListsLine texts entries) :
    (splitAtChar (· == '\n') (objectText texts).toList).filter (fun l => !l.isEmpty) = texts.map String.toList := by
  induction h with
  | nil => rfl
  | @cons text entry texts entries hline _ ih =>
    have hsep : ∀ d ∈ text.toList, (d == '\n') = false := fun d hd =>
      beq_eq_false_iff_ne.2 fun heq => hline.2 (heq ▸ hd)
    rw [objectText_cons, splitAtChar_append_sep (sep := (· == '\n')) rfl hsep,
      List.filter_cons_of_pos (by simpa using hline.toList_ne_nil), ih, List.map_cons]

theorem readObject_objectText {texts : List String} {entries : List (Word × Word)}
    (h : List.Forall₂ ListsLine texts entries) : readObject (objectText texts) = .ok entries := by
  rw [readObject, lines_objectText h, mapM_eq_ok_iff, List.forall₂_map_left_iff]
  refine h.imp fun text entry hentry => ?_
  rw [readObjectLineOrRefuse, hentry.1]

/-! ## The listing of a source -/

theorem addressed_append (a : Word) (p q : List Word) :
    addressed a (p ++ q) = addressed a p ++ addressed (a + BitVec.ofNat 16 (2 * p.length)) q := by
  induction p generalizing a with
  | nil => simp [addressed]
  | cons w p ih =>
    have hstep : a + 2 + BitVec.ofNat 16 (2 * p.length) = a + BitVec.ofNat 16 (2 * (w :: p).length) := by
      rw [List.length_cons, Nat.mul_succ, Nat.add_comm, BitVec.ofNat_add, ← BitVec.add_assoc]
      rfl
    rw [List.cons_append, addressed, addressed, ih, hstep, List.cons_append]

/-- A source with an error in a line is listed as that error, the first one. -/
theorem listingFrom_of_error (h : imageOf symbols lines = .error e) (a : Word) :
    listingFrom symbols a lines = .error e := by
  induction lines generalizing a with
  | nil => cases h
  | cons line rest ih =>
    cases hline : assembleLine symbols line with
    | error e' =>
      rw [imageOf_cons_of_error hline] at h
      cases h
      rw [listingFrom, hline]
    | ok first =>
      rw [imageOf_cons_of_ok hline] at h
      cases hrest : imageOf symbols rest with
      | ok others => rw [hrest] at h; cases h
      | error e' =>
        rw [hrest] at h
        cases h
        rw [listingFrom, hline, ih hrest]

/-- The listing of a source has a line for each word of its image, in their order. -/
theorem listingFrom_of_ok (h : imageOf symbols lines = .ok image) (a : Word) :
    ∃ texts, listingFrom symbols a lines = .ok texts ∧
      List.Forall₂ ListsLine texts (addressed a (image.map (ImageWord.toWord Config.byteOrder))) := by
  induction lines generalizing a image with
  | nil => cases h; exact ⟨[], rfl, .nil⟩
  | cons line rest ih =>
    obtain ⟨first, others, hline, hrest, rfl⟩ := imageOf_cons_ok h
    obtain ⟨texts, htexts, hlists⟩ := ih hrest (a + BitVec.ofNat 16 line.size)
    refine ⟨_, by rw [listingFrom, hline, htexts], ?_⟩
    rw [List.map_append, addressed_append, List.length_map, assembleLine_length hline]
    exact List.rel_append (listingLines_lists a (fitsThirdColumn_thirdColumn line _) _) hlists

theorem listing_of_resolved (h : resolvedSymbols lines = .ok symbols) : listing lines = listingFrom symbols 0 lines := by
  rw [listing, h]

theorem listing_of_unresolved (h : resolvedSymbols lines = .error e) : listing lines = .error e := by
  rw [listing, h]

/-- Settles O47: the listing meets the errors of the image, and otherwise its text is read line by line. -/
theorem objectFileReadsBackAsObjectCode : Obligations.ObjectFileReadsBackAsObjectCode := by
  intro lines
  rw [objectCode, objectFile]
  cases hs : resolvedSymbols lines with
  | error e => rw [assemble_of_unresolved hs, listing_of_unresolved hs]; rfl
  | ok symbols =>
    rw [assemble_of_resolved hs, listing_of_resolved hs]
    cases himage : imageOf symbols lines with
    | error e => rw [listingFrom_of_error himage]; rfl
    | ok image =>
      obtain ⟨texts, htexts, hlists⟩ := listingFrom_of_ok himage 0
      rw [htexts]
      exact ⟨objectText texts, rfl, readObject_objectText hlists⟩

end Sys2Proof.Machine
end

section
/-! PROOFS. The statements that rest on spec/60_exceptions.md: what the input and output services do when ldw and stw reach
them. -/

namespace Sys2Proof.Machine

variable {s : State} {m : Memory} {i : Instr} {ra : RegIdx} {svc : OutputService} {ea len : Word}

/-! ## Output services -/

/-- stw performs every output service, with the whole x[ra] as its value (60_exceptions R221). -/
theorem performsService_of_stw (h : TransferForm .stwR .stwI i ra s ea len) :
    PerformsService i s svc ea (s.x ra) (s.pc + len) := by
  refine performsService_of_exec fun hat => ?_
  rw [exec_stw h, storeWord, memWriteWord_service hat]

/-- Settles O21: the value services among those that stw performs. -/
theorem stwEmitsValue : Obligations.StwEmitsValue := by
  intro i ra s ea len svc hform hsvc
  obtain ⟨hvalue, -⟩ := performsService_of_stw (svc := svc) hform
  exact hvalue hsvc

/-- Settles O22: the write string services among those that stw performs, with a string that ends in RAM. -/
theorem stwEmitsString : Obligations.StwEmitsString := by
  intro i ra s ea len svc bytes hform hsvc
  obtain ⟨-, hstring⟩ := performsService_of_stw (svc := svc) hform
  obtain ⟨hterminated, -⟩ := hstring hsvc
  exact hterminated bytes

/-- Settles O23: the write string services among those that stw performs, with a string that does not end in RAM. -/
theorem stwFaultsOnUnterminatedString : Obligations.StwFaultsOnUnterminatedString := by
  intro i ra s ea len svc hform hsvc
  obtain ⟨-, hstring⟩ := performsService_of_stw (svc := svc) hform
  obtain ⟨-, hunterminated⟩ := hstring hsvc
  exact hunterminated

/-! ## Loading the oracle's answer -/

/-- A word load that consumes an answer of the oracle, with whatever memory m it leaves: the value goes to x[ra] and one
answer is gone (60_exceptions R222; entry 7). -/
theorem loadWord_of_answer (len : Word)
    (h : memReadWord s ra ea = .ok (Config.inputValue s.inputsRead, { s.consumeInput with mem := m })) :
    ∃ t, loadWord ra ea len s = .next t ∧ t.mem = m ∧ RegWritten s t ra (Config.inputValue s.inputsRead) ∧
      t.pc = s.pc + len ∧ t.output = s.output ∧ t.halted = s.halted ∧ t.inputsRead = s.inputsRead + 1 := by
  have ht : loadWord ra ea len s =
      .next (State.writeResult { s.consumeInput with mem := m } ra (Config.inputValue s.inputsRead) len) := by
    rw [loadWord, h]
    rfl
  exact ⟨_, ht, writeResult_mem .., fun k => writeResult_x _ k ra _ len, rfl, writeResult_output ..,
    writeResult_halted .., writeResult_inputsRead ..⟩

/-- The three addresses belong to services that supply a value and touch no memory (60_exceptions R220). -/
theorem inputServiceAt_of_mem_valueAddresses (h : ea ∈ ([0xf010, 0xf014, 0xf01c] : List Word)) :
    ∃ svc, svc ≠ .readString ∧ inputServiceAt ea = some svc := by
  simp only [List.mem_cons, List.not_mem_nil, or_false] at h
  obtain rfl | rfl | rfl := h
  · exact ⟨.readInt, nofun, rfl⟩
  · exact ⟨.readChar, nofun, rfl⟩
  · exact ⟨.readHex, nofun, rfl⟩

theorem performInput_of_ne_readString {svc : InputService} (h : svc ≠ .readString) :
    performInput s svc ra = .ok (Config.inputValue s.inputsRead, s.consumeInput) := by
  cases svc with
  | readString => exact absurd rfl h
  | readInt | readChar | readHex => rfl

/-- Settles O15: the three services answer the oracle's value and leave memory as it is. -/
theorem ldwReadsServiceValue : Obligations.LdwReadsServiceValue := by
  intro i ra s ea len hform hea
  obtain ⟨svc, hne, hat⟩ := inputServiceAt_of_mem_valueAddresses hea
  have hread := (memReadWord_service (s := s) (ra := ra) hat).trans (performInput_of_ne_readString hne)
  obtain ⟨t, ht, hmem, hregs, hpc, hout, hhalted, hinput⟩ := loadWord_of_answer len hread
  exact ⟨t, (exec_ldw hform).trans ht, hregs, hpc, sameRam_of_mem_eq hmem, hout, hhalted, hinput⟩

/-! ## Bytes stored one after another -/

theorem bytesAt_setBytesAt (hm : m.wf = true) {a : Nat} {bytes : List Byte} (hfits : a + bytes.length ≤ m.size) :
    BytesAt (m.setBytesAt a bytes) a bytes := by
  intro j hj
  rw [byteAt_setBytesAt hm hfits, if_pos (Nat.le_add_right a j), Nat.add_sub_cancel_left]
  exact List.getD_eq_getElem _ _ hj

theorem byteAt_setBytesAt_of_outside (hm : m.wf = true) {a : Nat} {bytes : List Byte}
    (hfits : a + bytes.length ≤ m.size) {b : Nat} (hb : b < a ∨ a + bytes.length ≤ b) :
    (m.setBytesAt a bytes).byteAt b = m.byteAt b := by
  rw [byteAt_setBytesAt hm hfits]
  split_ifs with hab
  · exact List.getD_eq_default _ _ (by omega)
  · rfl

/-! ## Read string -/

/-- The length with the terminator (60_exceptions R229; entry 15). -/
theorem typedString_length (n : Nat) : (typedString n).length = ((Config.inputBytes n).map Subtype.val).length + 1 :=
  List.length_append

theorem typed_ne_zero (n : Nat) : ∀ b ∈ (Config.inputBytes n).map Subtype.val, b ≠ 0 := by
  intro b hb
  obtain ⟨⟨b, hne⟩, -, rfl⟩ := List.mem_map.1 hb
  exact hne

theorem memReadWord_readString (s : State) (ra : RegIdx) :
    memReadWord s ra 0xf018 =
      (readStringInto s (s.x ra)).map (fun t => (Config.inputValue s.inputsRead, t)) :=
  memReadWord_service (svc := .readString) rfl

theorem firstOutside_eq (m : Memory) (a : Word) :
    m.firstOutside a = if a.toNat < m.size then BitVec.ofNat 16 m.size else a :=
  if_congr inRam_iff rfl rfl

/-- Read string into a buffer that holds the typed bytes and the terminator. -/
theorem memReadWord_readString_of_fits (h : (s.x ra).toNat + (typedString s.inputsRead).length ≤ s.mem.size) :
    memReadWord s ra 0xf018 =
      .ok (Config.inputValue s.inputsRead,
        { s.consumeInput with mem := s.mem.setBytesAt (s.x ra).toNat (typedString s.inputsRead) }) := by
  rw [memReadWord_readString, readStringInto, if_pos h]
  rfl

theorem memReadWord_readString_of_overrun (h : ¬ (s.x ra).toNat + (typedString s.inputsRead).length ≤ s.mem.size) :
    memReadWord s ra 0xf018 =
      .error (.accessFault (if (s.x ra).toNat < s.mem.size then BitVec.ofNat 16 s.mem.size else s.x ra) .write) := by
  rw [memReadWord_readString, readStringInto, if_neg h, firstOutside_eq]
  rfl

/-- Settles O16, by whether the typed bytes and the terminator fit into RAM: what is stored then stands there, and is read
back up to the terminator since no typed byte is zero. -/
theorem ldwReadsStringIntoBuffer : Obligations.LdwReadsStringIntoBuffer := by
  rintro i ra s ea len hm hform rfl typed
  have hlen : (typedString s.inputsRead).length = typed.length + 1 := typedString_length _
  rw [exec_ldw hform]
  split
  case isTrue hin =>
    have hfits : (s.x ra).toNat + (typedString s.inputsRead).length ≤ s.mem.size := by omega
    obtain ⟨t, ht, hmem, hregs, hpc, hout, hhalted, hinput⟩ :=
      loadWord_of_answer len (memReadWord_readString_of_fits hfits)
    have hbytes : BytesAt t.mem (s.x ra).toNat (typed ++ [0]) := by
      rw [hmem]
      exact bytesAt_setBytesAt hm hfits
    have hwords : t.mem.words = s.mem.words := by rw [hmem, setBytesAt_words]
    have hkept : SameRamBut (s.x ra).toNat (typed.length + 1) s t := by
      refine ⟨hwords, fun b hb => ?_⟩
      rw [hmem]
      exact byteAt_setBytesAt_of_outside hm hfits (by omega)
    have hback : t.mem.stringAt (s.x ra) = .ok typed :=
      stringAt_of_bytesAt (by rwa [Memory.size_eq_of_words hwords]) (typed_ne_zero _) hbytes
    exact ⟨t, ht, hregs, hpc, hbytes, hkept, hback, hout, hhalted, hinput⟩
  case isFalse hin =>
    have hover : ¬ (s.x ra).toNat + (typedString s.inputsRead).length ≤ s.mem.size := by omega
    exact loadWord_of_error (memReadWord_readString_of_overrun hover)

end Sys2Proof.Machine
end

section
/-! PROOFS. The statements that rest on spec/70_reset_and_hazards.md: the count of executed instructions, and that a step
is the decoded instruction and nothing else. -/

namespace Sys2Proof.Machine

variable {s u : State} {w imm : Word} {i : Instr}

/-! ## The cycle count -/

theorem memReadWord_cycles {ra : RegIdx} {a v : Word} (h : memReadWord s ra a = .ok (v, u)) : u.cycles = s.cycles := by
  obtain rfl | ⟨m, rfl⟩ := memReadWord_state h <;> rfl

theorem Stored.cycles (h : Stored s u) : u.cycles = s.cycles := by
  obtain ⟨m, rfl⟩ | ⟨e, rfl⟩ := h <;> rfl

/-- Settles O34: no access counts a cycle, and the end of every instruction counts one. -/
theorem everyInstructionCountsOneCycle : Obligations.EveryInstructionCountsOneCycle := by
  intro i s t h
  obtain ⟨ra, v, len, rfl⟩ | ⟨p, rfl⟩ | rfl | ⟨ra, ea, len, v, u, hu, rfl⟩ | ⟨ea, len, v, u, hu, rfl⟩ |
    ⟨ea, len, b, u, hu, rfl⟩ := exec_next h
  · exact writeResult_cycles ..
  · rfl
  · rfl
  · rw [writeResult_cycles, memReadWord_cycles hu]
  · rw [retire_cycles, (memWriteWord_stored hu).cycles]
  · rw [retire_cycles, (memWriteByte_stored hu).cycles]

/-! ## The step -/

theorem isReserved_eq_false_of_decodes (h : decodeWords w imm = .ok i) : isReserved w = false := by
  by_contra hr
  rw [decodeWords_of_reserved (Bool.eq_true_of_not_eq_false hr)] at h
  cases h

/-- The instruction of a word with bit 8 set has two words (30_encoding R73). -/
theorem encode_length_of_decodes (h : decodeWords w imm = .ok i) (hlong : hasImmediate w = true) :
    (encode i).length = 2 := by
  rw [encodeOfDecodeIsIdentity w imm i h, if_pos (hasImmediate_iff.1 hlong)]
  rfl

/-- Settles O31: the checks of the fetch pass, for the immediate word where the instruction has one. -/
theorem stepRunsDecodedInstruction : Obligations.StepRunsDecodedInstruction := by
  intro s i hh heven hfits _ hi
  have hpos : 0 < (encode i).length := Nat.succ_pos _
  have hin : s.pc.toNat < s.mem.size := by omega
  have hpc := toNat_add_two_of_inRam hin
  have himm (hlong : hasImmediate (ramWord s.mem s.pc.toNat) = true) :
      fetchWord s (s.pc + 2) = .ok (ramWord s.mem (s.pc.toNat + 2)) := by
    have hlen := encode_length_of_decodes hi hlong
    rw [fetchWord_eq_ramWord ⟨by omega, by omega⟩, hpc]
  exact step_of_fetchInstr_ok (by simp [hh])
    (fetchInstr_of_decodes (fetchWord_eq_ramWord ⟨heven, hin⟩) (isReserved_eq_false_of_decodes hi) himm hi)

end Sys2Proof.Machine
end
